-- ==== Sys2Proof/Config.lean ====
section
/-! DEFINITION. The implementation parameters of 00_scope.md R7 that are the same for every machine, and the free
values: the words the spec leaves open. The other parameters of R7 stand in `State`: the width `W` as a field of it, and
`P`, `N`, the phases, the seed and `fbMode` as they arrive with the host's calls. -/

namespace Sys2Proof.Config

/-- The default of the width `W` (WORD_BITS), 00_scope.md R7, 92_eei_decisions.md D1. `W` itself is an argument of the
model: every type of words takes it, `State` holds it as `width`, and no step changes it (log 1). Only `State.reset` and
`decodeTableWord`, which are given no width, take this default. -/
abbrev defaultWidth : Nat := 64

/-- The greatest memory length in words of `W` bits, `L <= 2^(W-1) - 1` (00_scope.md R7, 92_eei_decisions.md D17). -/
abbrev maxLength (W : Nat) : Nat := 2 ^ (W - 1) - 1

/-- A free value: nothing constrains it. `Block.freeCount` counts the uses, so that every use is a value of its own.
It stands for the words of the host's input source beyond those the block lists (log 9) and for the circuit's `signal`
before its first run (10_state.md R33, 93_implementation_defined.md U23; log 11). Safe: a claim that mentions it holds
for every value. -/
opaque freeWord (W : Nat) : Nat → BitVec W

end Sys2Proof.Config
end

