-- ==== Sys2Proof/Word.lean ====
section
/-! DEFINITION. The machine's word: `W` bits, two's complement signed (00_scope.md R7, R8), and the reading of an
exact integer as a word (00_scope.md R9). Addresses and `pc` are unbounded integers, not words (92_eei_decisions.md
D17). -/

namespace Sys2Proof

/-- One signed integer memory cell of `W` bits, for the model's argument `W` (00_scope.md R7, R14). -/
abbrev Word (W : Nat) := BitVec W

/-- `wrap_W(v)`: the one word congruent to `v` modulo `2^W` (00_scope.md R9). -/
abbrev wrap {W : Nat} (v : Int) : Word W := BitVec.ofInt W v

end Sys2Proof
end

