-- ==== Sys2Proof/Syntax.lean ====
section
/-! DEFINITION. The syntax of the machine: addressing modes and the nine instructions of spec/opcode_table.json
(30_encoding.md R63 to R69), and the lines of the spec's assembly language (30_encoding.md R76, R77).

An instruction is what the decoder gives: the opcode and the modes of its source parameters. The parameter words stay
in memory and are read when the instruction executes (20_memory.md R45, 40_engine_cycle.md R86; log 3). -/

namespace Sys2Proof

/-- An addressing mode as decoded from one mode digit (30_encoding.md R66, R68). -/
inductive Mode where
  /-- The parameter word is an address. -/
  | position
  /-- The parameter word is the operand. -/
  | immediate
  /-- A consulted digit 2 to 9; resolving it raises `IllegalMode`. -/
  | invalid (d : Nat)
  deriving DecidableEq, Repr

/-- The instructions, one constructor per row of the opcode table (30_encoding.md R64). A destination parameter
has no mode: it is always Position (30_encoding.md R67). -/
inductive Instr where
  | add (m1 m2 : Mode)
  | mul (m1 m2 : Mode)
  | inp
  | out (m1 : Mode)
  | jt (m1 m2 : Mode)
  | jf (m1 m2 : Mode)
  | lt (m1 m2 : Mode)
  | eq (m1 m2 : Mode)
  | hlt
  deriving DecidableEq, Repr

/-- A number of an assembly line: a literal, or a label that stands for its address (30_encoding.md R76). -/
inductive AsmNum where
  | lit (v : Int)
  | label (name : String)
  deriving DecidableEq, Repr

/-- A source operand of an assembly line: `#v` or `[a]` (30_encoding.md R76). -/
inductive AsmSrc where
  | imm (v : AsmNum)
  | pos (a : AsmNum)
  deriving DecidableEq, Repr

/-- One line of assembly: a label, a `.word` directive, an instruction, or a pseudo-instruction (30_encoding.md
R76, R77). A `AsmNum` in a destination place is written `[a]`. -/
inductive AsmLine where
  | labelled (name : String)
  | word (vs : List AsmNum)
  | add (s1 s2 : AsmSrc) (d : AsmNum)
  | mul (s1 s2 : AsmSrc) (d : AsmNum)
  | inp (d : AsmNum)
  | out (s : AsmSrc)
  | jt (c t : AsmSrc)
  | jf (c t : AsmSrc)
  | lt (s1 s2 : AsmSrc) (d : AsmNum)
  | eq (s1 s2 : AsmSrc) (d : AsmNum)
  | hlt
  | mov (s : AsmSrc) (d : AsmNum)
  | clr (d : AsmNum)
  | neg (s : AsmSrc) (d : AsmNum)
  | jmp (t : AsmSrc)
  | nop
  deriving DecidableEq, Repr

end Sys2Proof
end

