-- ==== Sys2Proof/WellFormed.lean ====
section
/-! DEFINITION. Which instruction terms stand for an instruction word: an `invalid` mode carries one of the digits
2 to 9 (30_encoding.md R66, R68). Everything the decoder yields is well-formed. -/

namespace Sys2Proof

/-- Digits 0 and 1 are Position and Immediate, so an invalid mode's digit is 2 to 9 (30_encoding.md R66). -/
def Mode.wf : Mode → Bool
  | .position => true
  | .immediate => true
  | .invalid d => decide (2 ≤ d ∧ d ≤ 9)

/-- Every source parameter's mode is one the decoder can give. -/
def Instr.wf : Instr → Bool
  | .add m1 m2 => m1.wf && m2.wf
  | .mul m1 m2 => m1.wf && m2.wf
  | .inp => true
  | .out m1 => m1.wf
  | .jt m1 m2 => m1.wf && m2.wf
  | .jf m1 m2 => m1.wf && m2.wf
  | .lt m1 m2 => m1.wf && m2.wf
  | .eq m1 m2 => m1.wf && m2.wf
  | .hlt => true

end Sys2Proof
end

