-- ==== Sys2Proof/Decode.lean ====
section
/-! DEFINITION. The decoder, total on every word and rejecting by name (30_encoding.md R61 to R73), and after it the
encoder (30_encoding.md R74), both written from the decimal digits of the opcode word. -/

namespace Sys2Proof

/-- Why a word is no instruction: `Unknown(x)` of 30_encoding.md R65. -/
inductive DecodeError where
  /-- `x` is the word itself when it is negative, and its low two decimal digits otherwise. -/
  | unknown (x : Int)
  deriving DecidableEq, Repr

/-- `digit_k(w)`: the k-th decimal digit, digit 0 at the units (00_scope.md R9). -/
def digit (k n : Nat) : Nat := n / 10 ^ k % 10

/-- The mode a mode digit selects (30_encoding.md R66, R68). -/
def modeOf : Nat → Mode
  | 0 => .position
  | 1 => .immediate
  | d => .invalid d

/-- The instruction a non-negative opcode word selects by its low two decimal digits (30_encoding.md R64, R65). -/
def decodeDigits (n : Nat) : Option Instr :=
  match n % 100 with
  | 1 => some (.add (modeOf (digit 2 n)) (modeOf (digit 3 n)))
  | 2 => some (.mul (modeOf (digit 2 n)) (modeOf (digit 3 n)))
  | 3 => some .inp
  | 4 => some (.out (modeOf (digit 2 n)))
  | 5 => some (.jt (modeOf (digit 2 n)) (modeOf (digit 3 n)))
  | 6 => some (.jf (modeOf (digit 2 n)) (modeOf (digit 3 n)))
  | 7 => some (.lt (modeOf (digit 2 n)) (modeOf (digit 3 n)))
  | 8 => some (.eq (modeOf (digit 2 n)) (modeOf (digit 3 n)))
  | 99 => some .hlt
  | _ => none

/-- `decode(w)` of 30_encoding.md R65. A negative word is `Unknown(w)` (92_eei_decisions.md D4). -/
def decode {W : Nat} (w : Word W) : Except DecodeError Instr :=
  if w.toInt < 0 then .error (.unknown w.toInt)
  else
    match decodeDigits w.toNat with
    | some i => .ok i
    | none => .error (.unknown (w.toNat % 100 : Nat))

/-- The opcode value of an instruction (30_encoding.md R64). -/
def Instr.opcode : Instr → Nat
  | .add _ _ => 1
  | .mul _ _ => 2
  | .inp => 3
  | .out _ => 4
  | .jt _ _ => 5
  | .jf _ _ => 6
  | .lt _ _ => 7
  | .eq _ _ => 8
  | .hlt => 99

/-- The number of parameters; the length in words is one more (30_encoding.md R62). -/
def Instr.arity : Instr → Nat
  | .add _ _ => 3
  | .mul _ _ => 3
  | .inp => 1
  | .out _ => 1
  | .jt _ _ => 2
  | .jf _ _ => 2
  | .lt _ _ => 3
  | .eq _ _ => 3
  | .hlt => 0

/-- The mode list of `decode(w)` in 30_encoding.md R65: one per parameter, a destination's fixed to Position (R67). -/
def Instr.modes : Instr → List Mode
  | .add m1 m2 => [m1, m2, .position]
  | .mul m1 m2 => [m1, m2, .position]
  | .inp => [.position]
  | .out m1 => [m1]
  | .jt m1 m2 => [m1, m2]
  | .jf m1 m2 => [m1, m2]
  | .lt m1 m2 => [m1, m2, .position]
  | .eq m1 m2 => [m1, m2, .position]
  | .hlt => []

/-- The digit of a mode (30_encoding.md R66). For `invalid d` it is `d` itself (log 4). -/
def Mode.digit : Mode → Nat
  | .position => 0
  | .immediate => 1
  | .invalid d => d

/-- The opcode word as a number, `b*1000 + a*100 + op`, with digit 0 where a parameter is absent or a destination
(30_encoding.md R74). -/
def Instr.opcodeNumber : Instr → Nat
  | .add m1 m2 => m2.digit * 1000 + m1.digit * 100 + 1
  | .mul m1 m2 => m2.digit * 1000 + m1.digit * 100 + 2
  | .inp => 3
  | .out m1 => m1.digit * 100 + 4
  | .jt m1 m2 => m2.digit * 1000 + m1.digit * 100 + 5
  | .jf m1 m2 => m2.digit * 1000 + m1.digit * 100 + 6
  | .lt m1 m2 => m2.digit * 1000 + m1.digit * 100 + 7
  | .eq m1 m2 => m2.digit * 1000 + m1.digit * 100 + 8
  | .hlt => 99

/-- The opcode word of an instruction, in a width that has it (every well-formed one is below 10000). -/
def opcodeWord {W : Nat} (i : Instr) : Word W := BitVec.ofNat W i.opcodeNumber

/-- The words of an instruction: its opcode word, then its parameter words (30_encoding.md R61, R74). -/
def encode {W : Nat} (i : Instr) (params : List (Word W)) : List (Word W) := opcodeWord i :: params

/-- Reading one instruction off a list of words: the instruction, its parameter words and the words after it
(30_encoding.md R62, R73). None where the first word is no opcode word or words are missing. -/
def disassemble {W : Nat} : List (Word W) → Option (Instr × List (Word W) × List (Word W))
  | [] => none
  | w :: ws =>
    match decode w with
    | .error _ => none
    | .ok i =>
      if ws.length < i.arity then none
      else some (i, ws.take i.arity, ws.drop i.arity)

/-- The instruction of a table row given as a number of `nbits` bits, in words of the default width. Bit 0 is the least
significant bit of the first word, and the decoder reads the first word alone (30_encoding.md R73). -/
def decodeTableWord (nbits w : Nat) : Option Instr :=
  match decode (BitVec.ofNat Config.defaultWidth (w % 2 ^ nbits)) with
  | .ok i => some i
  | .error _ => none

end Sys2Proof
end

