-- ==== Sys2Proof/Machine/State.lean ====
section
/-! DEFINITION. The state of the block as plain data (10_state.md): the Execution Engine, the Amplifier, the Feedback
Circuit, and the model's own fields that hold the host's calls and the free values. `Block W` is the block with words of
`W` bits, and `State` is a width with a block of that width. INVENTORY.md lists every field with its rule and its reset
value. -/

namespace Sys2Proof.Machine

variable {W : Nat}

/-- An engine's storage `M[0..L-1]`, with `L` its length (10_state.md R16, 20_memory.md R41). It is an array of
words, never of bytes (20_memory.md R51; log 2). Every list is the one form of its storage, so equal storages are
equal data. -/
abbrev Memory (W : Nat) := List (Word W)

/-- The engine status (10_state.md R19). -/
inductive Status where
  | running
  | suspended
  | halted
  | faulted
  deriving DecidableEq, Repr

/-- Which access an `OutOfRange` record names (60_exceptions.md R151). -/
inductive Access where
  | fetch
  | parameter
  | operand
  | destination
  | host
  deriving DecidableEq, Repr

/-- Which misuse a `CallerMisuse` record names (60_exceptions.md R151; the names are log 20's). -/
inductive Misuse where
  /-- `readWords` outside the storage (20_memory.md R48). -/
  | inspectionRange
  /-- `run()` on a Suspended engine (40_engine_cycle.md R90). -/
  | runWhileSuspended
  /-- `resume()` on a Running or Halted engine (40_engine_cycle.md R93). -/
  | resumeNotSuspended
  /-- An input request with `pending = None` (45_amplifier.md R115). -/
  | noPendingInput
  /-- An input request in `Finished` (45_amplifier.md R115). -/
  | inputAfterHalt
  /-- Construction of a circuit with `N = 0` (46_feedback_circuit.md R131). -/
  | emptyRing
  deriving DecidableEq, Repr

/-- A fault record: the fatal condition and the information recorded with it (60_exceptions.md R151). -/
inductive FaultRecord (W : Nat) where
  | outOfRange (a : Int) (pc : Int) (access : Access)
  | unsupportedOpcode (x : Int) (w : Word W) (pc : Int)
  | callerMisuse (m : Misuse)
  | illegalMode (d k : Nat) (pc : Int)
  | noOutput (amplifier : Nat)
  /-- The halted ring positions in rising order. -/
  | ringDesync (halted : List Nat)
  deriving DecidableEq, Repr

/-- The Execution Engine's state (10_state.md R15 to R21). -/
structure Engine (W : Nat) where
  mem    : Memory W
  pc     : Int
  status : Status
  fault  : Option (FaultRecord W)
  fb     : Bool
  deriving DecidableEq, Repr

/-- The amplifier's input-sourcing state (10_state.md R25). -/
inductive InState where
  | awaitingPhase
  | phaseDelivered
  | finished
  deriving DecidableEq, Repr

/-- The Amplifier's state (10_state.md R24). -/
structure Amplifier (W : Nat) where
  engine  : Engine W
  image   : Memory W
  phase   : Word W
  pending : Option (Word W)
  inState : InState
  lastOut : Option (Word W)
  deriving DecidableEq, Repr

/-- The Feedback Circuit's state (10_state.md R26). An empty ring means that no circuit has been constructed: a
constructed one has `N >= 1` (00_scope.md R7; log 13). -/
structure Circuit (W : Nat) where
  amps   : List (Amplifier W)
  signal : Word W
  fbMode : Bool
  deriving DecidableEq, Repr

/-- The engine the host constructs and drives itself (40_engine_cycle.md R81, R95), with its two capabilities as
data: the words the input source supplies next (log 9), and the words the output sink has consumed, oldest first
(log 10). -/
structure HostEngine (W : Nat) where
  engine  : Engine W
  inputs  : List (Word W)
  outputs : List (Word W)
  deriving DecidableEq, Repr

/-- Names an engine: the host's own, or the one at a ring position (60_exceptions.md R166). -/
inductive EngineId where
  | host
  | ring (i : Nat)
  deriving DecidableEq, Repr

/-- Which call is active; exactly one can be (00_scope.md R12, 46_feedback_circuit.md R139; log 5). -/
inductive Activity where
  /-- No call is active. -/
  | idle
  /-- The host called `run()` or `resume()` of this engine. -/
  | engine (id : EngineId)
  /-- The host called `run(x)` of the amplifier at this ring position. -/
  | amplifier (i : Nat)
  /-- The host called the circuit's `run`, and the amplifier at this ring position is running. -/
  | circuit (i : Nat)
  deriving DecidableEq, Repr

/-- A call of the host (40_engine_cycle.md R81, 20_memory.md R47 to R49, 45_amplifier.md R111, 46_feedback_circuit.md
R131). -/
inductive HostCall (W : Nat) where
  /-- Construct the host's engine from an image, with the words its input source will supply first (R95). -/
  | constructEngine (P inputs : List (Word W))
  /-- Construct one amplifier that the host drives itself: it becomes the whole ring (R112; log 7). -/
  | constructAmplifier (P : List (Word W)) (phase : Word W)
  /-- Construct a circuit of one amplifier per phase (R131). -/
  | constructCircuit (P : List (Word W)) (phases : List (Word W))
  /-- Set an engine's feedback flag (92_eei_decisions.md D26; log 16). -/
  | setFeedback (id : EngineId) (b : Bool)
  /-- `run()` of an engine (R90). -/
  | run (id : EngineId)
  /-- `resume()` of an engine (R92). -/
  | resume (id : EngineId)
  /-- `reset(P)` of the host's engine (R94; log 16). -/
  | resetEngine (P : List (Word W))
  | readAddress (id : EngineId) (a : Int)
  | readWords (id : EngineId) (a n : Int)
  | poke (id : EngineId) (a : Int) (v : Word W)
  /-- The engine's status query (R81; log 15). -/
  | engineStatus (id : EngineId)
  /-- `run(x)` of an amplifier (R117). -/
  | amplifierRun (i : Nat) (x : Word W)
  /-- `reset()` of an amplifier (R121). -/
  | amplifierReset (i : Nat)
  /-- The amplifier's status query (R111). -/
  | amplifierStatus (i : Nat)
  /-- `run(seed, fbMode)` of the circuit (R133, R134). -/
  | circuitRun (seed : Word W) (fbMode : Bool)
  deriving DecidableEq, Repr

/-- What a finished call returned to the host. -/
inductive Reply (W : Nat) where
  /-- Nothing, or the `None` of a `run()` or `resume()` without a fault. -/
  | done
  | word (v : Word W)
  | words (vs : List (Word W))
  | fault (r : FaultRecord W)
  | engineStatus (status : Status) (fault : Option (FaultRecord W)) (pc : Int)
  | amplifierStatus (status : Status) (inState : InState) (lastOut : Option (Word W))
  deriving DecidableEq, Repr

/-- The whole block, with words of `W` bits. -/
structure Block (W : Nat) where
  host      : HostEngine W
  circuit   : Circuit W
  activity  : Activity
  calls     : List (HostCall W)
  reply     : Option (Reply W)
  freeCount : Nat
  deriving DecidableEq, Repr

/-- Why a step can stop. A fatal condition of the spec is no stop: its entry is a next state (60_exceptions.md R155). -/
inductive Fault where
  /-- Raised by a meaning applied where no engine is executing a cycle (no active call, a ring position that does
  not exist, or an engine that is not Running), and by `step` where the active call names a ring position that does not
  exist. A cycle is "executed only while `status = Running`" (40_engine_cycle.md R83). Safe; log 18. -/
  | noRunningEngine
  deriving DecidableEq, Repr

/-- What the model does not do, by name. -/
inductive Refusal where
  /-- An instruction without a meaning. No arm of `exec` answers it. Safe. -/
  | notModelled (mnemonic : String)
  /-- Raised by a host call that names an amplifier, or the circuit, that has not been constructed: the spec gives
  no such call. Safe; log 17. -/
  | noSuchUnit
  /-- Raised by a host call whose program image is longer than `Config.maxLength` (00_scope.md R7). Safe; log 17. -/
  | imageTooLong
  deriving DecidableEq, Repr

/-- The block right after reset, in every width, before the host has constructed anything: the host's engine at the
values of 10_state.md R31 over the empty image, no amplifier, and no call active (log 13). `signal` and `fbMode` have no
value in the spec before the first run (log 11, log 12). -/
def Block.reset : Block W :=
  { host := { engine := { mem := [], pc := 0, status := .running, fault := none, fb := false }
              inputs := []
              outputs := [] }
    circuit := { amps := [], signal := 0, fbMode := false }
    activity := .idle
    calls := []
    reply := none
    freeCount := 0 }

/-- The machine: the width `W` of its words, an argument of the model that no step changes (00_scope.md R7,
92_eei_decisions.md D1; log 1), and the block at that width. -/
structure State where
  of ::
  {width : Nat}
  block : Block width
  deriving DecidableEq, Repr

/-- The machine of a given width right after reset. -/
def State.resetOf (W : Nat) : State := .of (Block.reset (W := W))

/-- The machine right after reset, at the width the spec gives as the default (00_scope.md R7). -/
def State.reset : State := State.resetOf Config.defaultWidth

end Sys2Proof.Machine
end

