-- ==== Sys2Proof/Machine/Ops.lean ====
section
/-! DEFINITION. The shared operations: storage access with its bounds check, fetching and decoding an instruction, taking
a fault, finding and replacing an engine of the block, and the two capabilities an engine calls. -/

namespace Sys2Proof.Machine

variable {W : Nat}

/-- What one step or one meaning answers. -/
abbrev Outcome := Host.Outcome State Fault Refusal

/-! ### Storage -/

/-- The length bound of 00_scope.md R7, the only condition on a storage. -/
def Memory.wf (m : Memory W) : Bool := decide (m.length ≤ Config.maxLength W)

/-- The addresses that exist: `[0, L)` (20_memory.md R43, R54). -/
abbrev Memory.inRange (m : Memory W) (a : Int) : Prop := 0 ≤ a ∧ a < m.length

/-- The word at an address, none where the address does not exist (20_memory.md R43). -/
def Memory.read (m : Memory W) (a : Int) : Option (Word W) :=
  if m.inRange a then m[a.toNat]? else none

/-- The storage after a write; an address that does not exist changes nothing (20_memory.md R44). -/
def Memory.write (m : Memory W) (a : Int) (v : Word W) : Memory W :=
  if m.inRange a then m.set a.toNat v else m

/-! ### Faults -/

/-- The numeric code of a fatal condition (60_exceptions.md R151). -/
def FaultRecord.code : FaultRecord W → Nat
  | .outOfRange _ _ _ => 1
  | .unsupportedOpcode _ _ _ => 2
  | .callerMisuse _ => 3
  | .illegalMode _ _ _ => 4
  | .noOutput _ => 5
  | .ringDesync _ => 6

/-- Fault entry, `raise F(info)` (60_exceptions.md R155): the fault is recorded and the engine is Faulted; memory, `pc`
and `fb` stay. An engine that is Faulted already keeps its first record (10_state.md R20, 92_eei_decisions.md D8; log
14). No return from a fault exists but reset (60_exceptions.md R158). -/
def Engine.raise (e : Engine W) (r : FaultRecord W) : Engine W :=
  if e.status = .faulted then e else { e with status := .faulted, fault := some r }

/-! ### An engine's storage, cursor and status -/

/-- The values of 10_state.md R31: what construction from `P` sets, and what `reset(P)` sets but for `fb`. -/
def Engine.fresh (P : List (Word W)) (fb : Bool) : Engine W :=
  { mem := P, pc := 0, status := .running, fault := none, fb := fb }

/-- `reset(P)`: the values of 10_state.md R31 with `fb` unchanged (40_engine_cycle.md R94, 70_reset_and_hazards.md
R176). -/
def Engine.resetTo (e : Engine W) (P : List (Word W)) : Engine W := Engine.fresh P e.fb

/-- `MemRead(a, 1)` (20_memory.md R43); `access` is the record's account of which access it is. -/
def Engine.memRead (e : Engine W) (a : Int) (access : Access) : Except (FaultRecord W) (Word W) :=
  match e.mem.read a with
  | some v => .ok v
  | none => .error (.outOfRange a e.pc access)

/-- The storage part of `MemWrite(a, 1, v)`, after its bounds check. -/
def Engine.store (e : Engine W) (a : Int) (v : Word W) : Engine W := { e with mem := e.mem.write a v }

/-- `MemWrite(a, 1, v)` (20_memory.md R44). -/
def Engine.memWrite (e : Engine W) (a : Int) (v : Word W) (access : Access) : Except (FaultRecord W) (Engine W) :=
  if e.mem.inRange a then .ok (e.store a v) else .error (.outOfRange a e.pc access)

/-- `pc <- pc + n` (10_state.md R17); `pc` is unbounded and does not wrap. -/
def Engine.advance (e : Engine W) (n : Nat) : Engine W := { e with pc := e.pc + n }

/-- `pc <- t` (00_scope.md R10). -/
def Engine.jump (e : Engine W) (t : Int) : Engine W := { e with pc := t }

/-- HLT's effect: Halted, with `pc` at the end-of-memory sentinel `L` (44_control.md R109). -/
def Engine.halt (e : Engine W) : Engine W := { e with status := .halted, pc := e.mem.length }

/-- OUT's effect in feedback mode: Suspended, with `pc` at the OUT (43_io.md R106, 10_state.md R18). -/
def Engine.suspend (e : Engine W) : Engine W := { e with status := .suspended }

/-- What `resume()` does to a Suspended engine before it re-enters the loop: the deferred advance of 2, and Running
(40_engine_cycle.md R92). -/
def Engine.wake (e : Engine W) : Engine W := { e with pc := e.pc + 2, status := .running }

/-- What `run()` or `resume()` returns once its loop has ended: the fault of a Faulted engine, otherwise None
(40_engine_cycle.md R88, R90). -/
def Engine.returned (e : Engine W) : Option (FaultRecord W) :=
  if e.status = .faulted then e.fault else none

/-- Fetch and decode of one cycle (40_engine_cycle.md R83, R84). An out-of-range `pc` raises OutOfRange; a word that
is no opcode word raises UnsupportedOpcode at dispatch (44_control.md R110), after a successful fetch (60_exceptions.md
R153). -/
def Engine.fetch (e : Engine W) : Except (FaultRecord W) Instr :=
  match e.memRead e.pc .fetch with
  | .error r => .error r
  | .ok w =>
    match decode w with
    | .ok i => .ok i
    | .error (.unknown x) => .error (.unsupportedOpcode x w e.pc)

/-- The words of an instruction given as a number of `nbits` bits, bit 0 the least significant bit of the first word,
up to the longest instruction's four words. -/
def fetchImage (nbits w : Nat) : List (Word W) :=
  let n := w % 2 ^ nbits
  [BitVec.ofNat W n,
   BitVec.ofNat W (n / 2 ^ W),
   BitVec.ofNat W (n / 2 ^ (2 * W)),
   BitVec.ofNat W (n / 2 ^ (3 * W))]

/-! ### The engines of the block -/

/-- The engine whose cycles the active call executes. -/
def Activity.engineId : Activity → Option EngineId
  | .idle => none
  | .engine id => some id
  | .amplifier i => some (.ring i)
  | .circuit i => some (.ring i)

/-- The engine of a name, none where no such ring position exists. -/
def Block.engine? (s : Block W) : EngineId → Option (Engine W)
  | .host => some s.host.engine
  | .ring i => s.circuit.amps[i]?.map (·.engine)

/-- Replaces the amplifier at a ring position. -/
def Block.mapAmp (s : Block W) (i : Nat) (f : Amplifier W → Amplifier W) : Block W :=
  { s with circuit := { s.circuit with amps := s.circuit.amps.modify i f } }

/-- Replaces an engine of the block, and nothing else. -/
def Block.setEngine (s : Block W) (id : EngineId) (e : Engine W) : Block W :=
  match id with
  | .host => { s with host := { s.host with engine := e } }
  | .ring i => s.mapAmp i fun a => { a with engine := e }

/-- A fault of an engine of the block. -/
def Block.raise (s : Block W) (id : EngineId) (e : Engine W) (r : FaultRecord W) : Block W :=
  s.setEngine id (e.raise r)

/-- A cycle is "executed only while `status = Running`" (40_engine_cycle.md R83): the engine of the active call
executes `k` if it is Running; otherwise no cycle takes place (log 18). -/
def Block.onRunning (s : Block W) (k : EngineId → Engine W → Outcome) : Outcome :=
  match s.activity.engineId with
  | none => .fault .noRunningEngine
  | some id =>
    match s.engine? id with
    | none => .fault .noRunningEngine
    | some e => if e.status = .running then k id e else .fault .noRunningEngine

/-- An instruction that calls neither capability: its effect on the executing engine, or the fault it raises. -/
def Block.execute (s : Block W) (f : Engine W → Except (FaultRecord W) (Engine W)) : Outcome :=
  s.onRunning fun id e =>
    match f e with
    | .ok e' => .next (.of (s.setEngine id e'))
    | .error r => .next (.of (s.raise id e r))

/-! ### The two capabilities -/

/-- The amplifier's input source (45_amplifier.md R115). `pending` is not consumed. -/
def Amplifier.supply (a : Amplifier W) : Except (FaultRecord W) (Word W × Amplifier W) :=
  match a.inState with
  | .awaitingPhase => .ok (a.phase, { a with inState := .phaseDelivered })
  | .phaseDelivered =>
    match a.pending with
    | none => .error (.callerMisuse .noPendingInput)
    | some v => .ok (v, a)
  | .finished => .error (.callerMisuse .inputAfterHalt)

/-- The amplifier's output sink (45_amplifier.md R116). -/
def Amplifier.consume (a : Amplifier W) (v : Word W) : Amplifier W := { a with lastOut := some v }

/-- The host's input source, total (92_eei_decisions.md D27): the next listed word, and a free value of its own once
the list is used up (log 9). -/
def Block.hostSupply (s : Block W) : Word W × Block W :=
  match s.host.inputs with
  | v :: vs => (v, { s with host := { s.host with inputs := vs } })
  | [] => (Config.freeWord W s.freeCount, { s with freeCount := s.freeCount + 1 })

/-- `supply()` of an engine: one call of the source it was bound to at construction (10_state.md R22, 43_io.md
R105). The arm of a ring position that does not exist is never reached: the engine that calls stands there. -/
def Block.supply (s : Block W) (id : EngineId) : Except (FaultRecord W) (Word W × Block W) :=
  match id with
  | .host => .ok s.hostSupply
  | .ring i =>
    match s.circuit.amps[i]? with
    | none => .error (.callerMisuse .noPendingInput)
    | some a =>
      match a.supply with
      | .error r => .error r
      | .ok (v, a') => .ok (v, s.mapAmp i fun _ => a')

/-- `consume(v)` of an engine: one call of the sink it was bound to at construction (10_state.md R22, 43_io.md R106);
it cannot fail (92_eei_decisions.md D27). -/
def Block.consume (s : Block W) (id : EngineId) (v : Word W) : Block W :=
  match id with
  | .host => { s with host := { s.host with outputs := s.host.outputs ++ [v] } }
  | .ring i => s.mapAmp i fun a => a.consume v

end Sys2Proof.Machine
end

