-- ==== Sys2Proof/Machine/Amplifier.lean ====
section
/-! DEFINITION. The Amplifier's entry points (45_amplifier.md). `run(x)` is cut where the engine's cycles stand: `begin`
is what happens before the engine's loop, `settle` and `result` what happens after it has ended (log 5). -/

namespace Sys2Proof.Machine

variable {W : Nat}

/-- Construction (45_amplifier.md R112, 10_state.md R32). -/
def Amplifier.construct (P : List (Word W)) (phase : Word W) : Amplifier W :=
  { engine := Engine.fresh P false, image := P, phase := phase, pending := none
    inState := .awaitingPhase, lastOut := none }

/-- `reset()` (45_amplifier.md R121): the engine restarts from the original image; `phase` and `fb` stay. -/
def Amplifier.reset (a : Amplifier W) : Amplifier W :=
  { a with engine := a.engine.resetTo a.image, pending := none, inState := .awaitingPhase, lastOut := none }

/-- The part of `run(x)` before the engine's loop (45_amplifier.md R117): `pending <- Some x`, and `resume()` of a
Suspended engine. On any other engine the call is `run()`, which changes nothing before the loop (40_engine_cycle.md
R90). -/
def Amplifier.begin (a : Amplifier W) (x : Word W) : Amplifier W :=
  { a with pending := some x
           engine := if a.engine.status = .suspended then a.engine.wake else a.engine }

/-- After the engine call: an amplifier whose engine is Halted is Finished (45_amplifier.md R118). -/
def Amplifier.settle (a : Amplifier W) : Amplifier W :=
  { a with inState := if a.engine.status = .halted then .finished else a.inState }

/-- What `run(x)` returns (45_amplifier.md R117, R119, R120): the engine's fault unchanged, NoOutput where nothing was
emitted since reset, otherwise the last emitted word. `i` is the amplifier's ring position. -/
def Amplifier.result (a : Amplifier W) (i : Nat) : Except (FaultRecord W) (Word W) :=
  match a.engine.returned with
  | some r => .error r
  | none =>
    match a.lastOut with
    | none => .error (.noOutput i)
    | some v => .ok v

end Sys2Proof.Machine
end

