-- ==== Sys2Proof/Machine/Circuit.lean ====
section
/-! DEFINITION. The Feedback Circuit's sequencing (46_feedback_circuit.md), cut where the engines' cycles stand (log 5). -/

namespace Sys2Proof.Machine

variable {W : Nat}

/-- Construction for `N >= 1` phases (46_feedback_circuit.md R131, 10_state.md R33). `signal` is free before the first
run (log 11), and `fbMode` is set by each run (log 12). -/
def Circuit.construct (P phases : List (Word W)) (signal : Word W) : Circuit W :=
  { amps := phases.map (Amplifier.construct P), signal := signal, fbMode := false }

/-- `start(seed, fbMode)` (46_feedback_circuit.md R132): every amplifier is reset and its engine's `fb` set. -/
def Circuit.start (c : Circuit W) (seed : Word W) (fbMode : Bool) : Circuit W :=
  { amps := c.amps.map fun a =>
      let a' := a.reset
      { a' with engine := { a'.engine with fb := fbMode } }
    signal := seed
    fbMode := fbMode }

/-- `H`, the ring positions whose engines are Halted, in rising order (46_feedback_circuit.md R134). -/
def Circuit.haltedSet (c : Circuit W) : List Nat :=
  (List.range c.amps.length).filter fun i =>
    match c.amps[i]? with
    | some a => decide (a.engine.status = .halted)
    | none => false

/-- The call `amps[i].run(signal)` up to its engine's loop (46_feedback_circuit.md R133, R134). -/
def Block.callAmp (s : Block W) (i : Nat) : Block W :=
  { s.mapAmp i (fun a => a.begin s.circuit.signal) with activity := .circuit i }

/-- A call ends: its reply stands for the host, and no call is active. -/
def Block.answer (s : Block W) (r : Reply W) : Block W := { s with reply := some r, activity := .idle }

/-- The end of a pass. Non-feedback mode returns the signal (46_feedback_circuit.md R133). Feedback mode returns it
if every engine is Halted, RingDesync if only some are, and otherwise starts another pass at amplifier 0 (R134 to
R136). -/
def Block.endPass (s : Block W) : Block W :=
  if s.circuit.fbMode then
    let halted := s.circuit.haltedSet
    if halted = List.range s.circuit.amps.length then s.answer (.word s.circuit.signal)
    else if halted = [] then s.callAmp 0
    else s.answer (.fault (.ringDesync halted))
  else s.answer (.word s.circuit.signal)

/-- What the circuit does with the result of `amps[i].run(signal)`: a fault ends the run at once and is returned
unchanged (46_feedback_circuit.md R137); a word becomes the signal and goes to the next amplifier, or ends the pass
(R133, R134, R138). -/
def Block.afterAmp (s : Block W) (i : Nat) (result : Except (FaultRecord W) (Word W)) : Block W :=
  match result with
  | .error r => s.answer (.fault r)
  | .ok v =>
    let s' := { s with circuit := { s.circuit with signal := v } }
    if i + 1 < s.circuit.amps.length then s'.callAmp (i + 1) else s'.endPass

end Sys2Proof.Machine
end

