-- ==== Sys2Proof/Machine/Calls.lean ====
section
/-! DEFINITION. The steps that execute no instruction: the return of an engine loop that has ended (40_engine_cycle.md
R88, 45_amplifier.md R117, 46_feedback_circuit.md R133, R134), and one call of the host (40_engine_cycle.md R81). -/

namespace Sys2Proof.Machine

variable {W : Nat}

/-! ### The end of an engine loop -/

/-- The reply of an engine's `run()` or `resume()` (40_engine_cycle.md R88, R89). -/
def Engine.reply (e : Engine W) : Reply W :=
  match e.returned with
  | none => .done
  | some r => .fault r

/-- The reply of an amplifier's `run(x)` (45_amplifier.md R117). -/
def Amplifier.reply (a : Amplifier W) (i : Nat) : Reply W :=
  match a.result i with
  | .ok v => .word v
  | .error r => .fault r

/-- The engine of the active call is not Running, so its loop has ended (40_engine_cycle.md R88) and the call returns to
its caller. -/
def Block.returnStep (s : Block W) : Outcome :=
  match s.activity with
  | .idle => .fault .noRunningEngine
  | .engine id =>
    match s.engine? id with
    | none => .fault .noRunningEngine
    | some e => .next (.of (s.answer e.reply))
  | .amplifier i =>
    match s.circuit.amps[i]? with
    | none => .fault .noRunningEngine
    | some a => .next (.of ((s.mapAmp i fun _ => a.settle).answer (a.reply i)))
  | .circuit i =>
    match s.circuit.amps[i]? with
    | none => .fault .noRunningEngine
    | some a => .next (.of ((s.mapAmp i fun _ => a.settle).afterAmp i (a.result i)))

/-! ### One call of the host -/

/-- A call on an engine that exists. -/
def Block.withEngine (s : Block W) (id : EngineId) (k : Engine W → Outcome) : Outcome :=
  match s.engine? id with
  | none => .refused .noSuchUnit
  | some e => k e

/-- A call on an amplifier that exists. -/
def Block.withAmp (s : Block W) (i : Nat) (k : Amplifier W → Outcome) : Outcome :=
  match s.circuit.amps[i]? with
  | none => .refused .noSuchUnit
  | some a => k a

/-- A call on an engine that raises: the engine enters Faulted and the host gets the fault (60_exceptions.md R156). -/
def Block.hostFault (s : Block W) (id : EngineId) (e : Engine W) (r : FaultRecord W) : Outcome :=
  .next (.of ((s.raise id e r).answer (.fault r)))

/-- Construction of the host's engine (40_engine_cycle.md R95). -/
def Block.constructEngine (s : Block W) (P inputs : List (Word W)) : Outcome :=
  if Memory.wf P then
    .next (.of ({ s with
      host := { engine := Engine.fresh P false, inputs := inputs, outputs := [] } }.answer .done))
  else .refused .imageTooLong

/-- Construction of a circuit, or of one amplifier as a ring of its own (46_feedback_circuit.md R131, 45_amplifier.md
R112; log 7). With no phase it raises CallerMisuse and constructs nothing (92_eei_decisions.md D15). -/
def Block.constructCircuit (s : Block W) (P phases : List (Word W)) : Outcome :=
  if phases = [] then .next (.of (s.answer (.fault (.callerMisuse .emptyRing))))
  else if Memory.wf P then
    .next (.of ({ s with
      circuit := Circuit.construct P phases (Config.freeWord W s.freeCount)
      freeCount := s.freeCount + 1 }.answer .done))
  else .refused .imageTooLong

/-- The host's setting of an engine's feedback flag (92_eei_decisions.md D26). -/
def Block.setFeedback (s : Block W) (id : EngineId) (b : Bool) : Outcome :=
  s.withEngine id fun e => .next (.of ((s.setEngine id { e with fb := b }).answer .done))

/-- `run()` (40_engine_cycle.md R90): a Running engine enters its loop. -/
def Block.run (s : Block W) (id : EngineId) : Outcome :=
  s.withEngine id fun e =>
    match e.status with
    | .running => .next (.of { s with activity := .engine id })
    | .halted => .next (.of (s.answer .done))
    | .faulted => .next (.of (s.answer e.reply))
    | .suspended => s.hostFault id e (.callerMisuse .runWhileSuspended)

/-- `resume()` (40_engine_cycle.md R92, R93): a Suspended engine takes its deferred advance and enters its loop. -/
def Block.resume (s : Block W) (id : EngineId) : Outcome :=
  s.withEngine id fun e =>
    match e.status with
    | .faulted => .next (.of (s.answer e.reply))
    | .suspended => .next (.of { s.setEngine id e.wake with activity := .engine id })
    | .running => s.hostFault id e (.callerMisuse .resumeNotSuspended)
    | .halted => s.hostFault id e (.callerMisuse .resumeNotSuspended)

/-- `reset(P)` of the host's engine (40_engine_cycle.md R94, 70_reset_and_hazards.md R176). -/
def Block.resetEngine (s : Block W) (P : List (Word W)) : Outcome :=
  if Memory.wf P then .next (.of ((s.setEngine .host (s.host.engine.resetTo P)).answer .done))
  else .refused .imageTooLong

/-- `readAddress(a)` (20_memory.md R47). -/
def Block.readAddress (s : Block W) (id : EngineId) (a : Int) : Outcome :=
  s.withEngine id fun e =>
    match e.memRead a .host with
    | .ok v => .next (.of (s.answer (.word v)))
    | .error r => s.hostFault id e r

/-- `readWords(a, n)` (20_memory.md R48). -/
def Block.readWords (s : Block W) (id : EngineId) (a n : Int) : Outcome :=
  s.withEngine id fun e =>
    if n < 0 ∨ a < 0 ∨ a + n > e.mem.length then s.hostFault id e (.callerMisuse .inspectionRange)
    else .next (.of (s.answer (.words ((e.mem.drop a.toNat).take n.toNat))))

/-- `poke(a, v)` (20_memory.md R49). -/
def Block.poke (s : Block W) (id : EngineId) (a : Int) (v : Word W) : Outcome :=
  s.withEngine id fun e =>
    match e.memWrite a v .host with
    | .ok e' => .next (.of ((s.setEngine id e').answer .done))
    | .error r => s.hostFault id e r

/-- The engine's status query (40_engine_cycle.md R81; its `pc`: log 15). -/
def Block.engineStatus (s : Block W) (id : EngineId) : Outcome :=
  s.withEngine id fun e => .next (.of (s.answer (.engineStatus e.status e.fault e.pc)))

/-- `run(x)` of an amplifier (45_amplifier.md R117), up to its engine's loop. -/
def Block.amplifierRun (s : Block W) (i : Nat) (x : Word W) : Outcome :=
  s.withAmp i fun a => .next (.of { s.mapAmp i (fun _ => a.begin x) with activity := .amplifier i })

/-- `reset()` of an amplifier (45_amplifier.md R121). -/
def Block.amplifierReset (s : Block W) (i : Nat) : Outcome :=
  s.withAmp i fun a => .next (.of ((s.mapAmp i fun _ => a.reset).answer .done))

/-- The amplifier's status query (45_amplifier.md R111). -/
def Block.amplifierStatus (s : Block W) (i : Nat) : Outcome :=
  s.withAmp i fun a => .next (.of (s.answer (.amplifierStatus a.engine.status a.inState a.lastOut)))

/-- `run(seed, fbMode)` of the circuit (46_feedback_circuit.md R132 to R134), up to amplifier 0's engine loop. -/
def Block.circuitRun (s : Block W) (seed : Word W) (fbMode : Bool) : Outcome :=
  if s.circuit.amps = [] then .refused .noSuchUnit
  else .next (.of ({ s with circuit := s.circuit.start seed fbMode }.callAmp 0))

/-- One call of the host. -/
def Block.serve (s : Block W) : HostCall W → Outcome
  | .constructEngine P inputs => s.constructEngine P inputs
  | .constructAmplifier P phase => s.constructCircuit P [phase]
  | .constructCircuit P phases => s.constructCircuit P phases
  | .setFeedback id b => s.setFeedback id b
  | .run id => s.run id
  | .resume id => s.resume id
  | .resetEngine P => s.resetEngine P
  | .readAddress id a => s.readAddress id a
  | .readWords id a n => s.readWords id a n
  | .poke id a v => s.poke id a v
  | .engineStatus id => s.engineStatus id
  | .amplifierRun i x => s.amplifierRun i x
  | .amplifierReset i => s.amplifierReset i
  | .amplifierStatus i => s.amplifierStatus i
  | .circuitRun seed fbMode => s.circuitRun seed fbMode

/-- No call is active: the oldest waiting call of the host is served. With none waiting the block rests unchanged
(log 6). -/
def Block.hostStep (s : Block W) : Outcome :=
  match s.calls with
  | [] => .next (.of s)
  | c :: cs => { s with calls := cs, reply := none }.serve c

end Sys2Proof.Machine
end

