-- ==== Sys2Proof/Machine/Operands.lean ====
section
/-! DEFINITION. Operand resolution (20_memory.md R45, R46): a source parameter in each of its modes, and a destination
parameter. Parameters are resolved in order, each parameter word before its Position target, and the first failure is
the one reported (40_engine_cycle.md R86, 60_exceptions.md R159). -/

namespace Sys2Proof.Machine

variable {W : Nat}

/-- `read(mode, k)` (20_memory.md R45): the parameter word, then its mode, then its Position target. -/
def Engine.operand (e : Engine W) (m : Mode) (k : Nat) : Except (FaultRecord W) (Word W) :=
  match e.memRead (e.pc + k) .parameter with
  | .error r => .error r
  | .ok pw =>
    match m with
    | .position => e.memRead pw.toInt .operand
    | .immediate => .ok pw
    | .invalid d => .error (.illegalMode d k e.pc)

/-- `dest(k)` with the range check of the destination address (20_memory.md R46, 40_engine_cycle.md R87): the
destination address is the parameter word itself. -/
def Engine.destination (e : Engine W) (k : Nat) : Except (FaultRecord W) Int :=
  match e.memRead (e.pc + k) .parameter with
  | .error r => .error r
  | .ok pw =>
    if e.mem.inRange pw.toInt then .ok pw.toInt
    else .error (.outOfRange pw.toInt e.pc .destination)

/-- The parameters of format F3: two sources, then a destination (30_encoding.md R63). -/
def Engine.params3 (e : Engine W) (m1 m2 : Mode) : Except (FaultRecord W) ((Word W) × (Word W) × Int) :=
  match e.operand m1 1 with
  | .error r => .error r
  | .ok a =>
    match e.operand m2 2 with
    | .error r => .error r
    | .ok b =>
      match e.destination 3 with
      | .error r => .error r
      | .ok d => .ok (a, b, d)

/-- The parameters of format F2S: two sources, both resolved whether or not the jump is taken (30_encoding.md R63,
44_control.md R107, 92_eei_decisions.md D10). -/
def Engine.params2 (e : Engine W) (m1 m2 : Mode) : Except (FaultRecord W) ((Word W) × (Word W)) :=
  match e.operand m1 1 with
  | .error r => .error r
  | .ok c =>
    match e.operand m2 2 with
    | .error r => .error r
    | .ok t => .ok (c, t)

/-- Format F3 as a whole: resolve, write `f a b` to the destination, advance by 4 (41_arithmetic.md R101, R102,
42_compare.md R103, R104). Every read precedes the write (40_engine_cycle.md R87). -/
def Engine.binary (f : Word W → Word W → Word W) (m1 m2 : Mode) (e : Engine W) : Except (FaultRecord W) (Engine W) :=
  match e.params3 m1 m2 with
  | .error r => .error r
  | .ok (a, b, d) => .ok ((e.store d (f a b)).advance 4)

/-- Format F2S as a whole: resolve, jump to the target if the condition holds, otherwise advance by 3 (44_control.md
R107, R108). The target is not checked here (40_engine_cycle.md R84). -/
def Engine.branch (taken : Word W → Bool) (m1 m2 : Mode) (e : Engine W) : Except (FaultRecord W) (Engine W) :=
  match e.params2 m1 m2 with
  | .error r => .error r
  | .ok (c, t) => .ok (if taken c then e.jump t.toInt else e.advance 3)

end Sys2Proof.Machine
end

