-- ==== Sys2Proof/Machine/Arithmetic.lean ====
section
/-! DEFINITION. ADD and MUL (41_arithmetic.md). -/

namespace Sys2Proof.Machine

/-- ADD (41_arithmetic.md R101): the exact sum, wrapped. -/
def execAdd (m1 m2 : Mode) (s : State) : Outcome :=
  s.block.execute (Engine.binary (fun a b => wrap (a.toInt + b.toInt)) m1 m2)

/-- MUL (41_arithmetic.md R102): the exact product, wrapped. -/
def execMul (m1 m2 : Mode) (s : State) : Outcome :=
  s.block.execute (Engine.binary (fun a b => wrap (a.toInt * b.toInt)) m1 m2)

end Sys2Proof.Machine
end

