-- ==== Sys2Proof/Machine/Flags.lean ====
section
/-! DEFINITION. The block has no status flags or condition codes (10_state.md R27). What stands in their place is the
word a comparison writes to memory (42_compare.md) and the test a jump makes of a word (44_control.md). -/

namespace Sys2Proof.Machine

variable {W : Nat}

/-- The word 1 or the word 0 (42_compare.md R103, R104). -/
def boolWord (b : Bool) : Word W := if b then 1 else 0

/-- The signed comparison of LT (42_compare.md R103). -/
def wordLt (a b : Word W) : Bool := decide (a.toInt < b.toInt)

/-- The whole-word equality of EQ (42_compare.md R104). -/
def wordEq (a b : Word W) : Bool := decide (a = b)

/-- The condition of JT: any non-zero word (44_control.md R107). -/
def condNonZero (c : Word W) : Bool := decide (c ≠ 0)

/-- The condition of JF: the zero word (44_control.md R108). -/
def condZero (c : Word W) : Bool := decide (c = 0)

end Sys2Proof.Machine
end

