-- ==== Sys2Proof/Machine/Compare.lean ====
section
/-! DEFINITION. LT and EQ (42_compare.md). -/

namespace Sys2Proof.Machine

/-- LT (42_compare.md R103): 1 if `a < b` as signed words, else 0. -/
def execLt (m1 m2 : Mode) (s : State) : Outcome :=
  s.block.execute (Engine.binary (fun a b => boolWord (wordLt a b)) m1 m2)

/-- EQ (42_compare.md R104): 1 if the words are equal, else 0. -/
def execEq (m1 m2 : Mode) (s : State) : Outcome :=
  s.block.execute (Engine.binary (fun a b => boolWord (wordEq a b)) m1 m2)

end Sys2Proof.Machine
end

