-- ==== Sys2Proof/Machine/Control.lean ====
section
/-! DEFINITION. JT, JF and HLT (44_control.md). An unsupported opcode is no instruction: `Engine.fetch` raises it
(44_control.md R110). -/

namespace Sys2Proof.Machine

/-- JT (44_control.md R107): jumps if the condition is any non-zero word. -/
def execJt (m1 m2 : Mode) (s : State) : Outcome := s.block.execute (Engine.branch condNonZero m1 m2)

/-- JF (44_control.md R108): jumps if the condition is zero. -/
def execJf (m1 m2 : Mode) (s : State) : Outcome := s.block.execute (Engine.branch condZero m1 m2)

/-- HLT (44_control.md R109). -/
def execHlt (s : State) : Outcome := s.block.execute fun e => .ok e.halt

end Sys2Proof.Machine
end

