-- ==== Sys2Proof/Machine/InputOutput.lean ====
section
/-! DEFINITION. IN and OUT (43_io.md), the only instructions that call a capability. -/

namespace Sys2Proof.Machine

/-- IN (43_io.md R105): the destination is checked before the one `supply()` call, so a faulting IN calls nothing
(92_eei_decisions.md D11). A fault raised inside `supply()` enters Faulted too (60_exceptions.md R156). -/
def execIn (s : State) : Outcome :=
  s.block.onRunning fun id e =>
    match e.destination 1 with
    | .error r => .next (.of (s.block.raise id e r))
    | .ok d =>
      match s.block.supply id with
      | .error r => .next (.of (s.block.raise id e r))
      | .ok (v, s') => .next (.of (s'.setEngine id ((e.store d v).advance 2)))

/-- OUT (43_io.md R106): one `consume(v)`; with `fb` the engine suspends with `pc` at this OUT, without it `pc`
advances by 2. -/
def execOut (m1 : Mode) (s : State) : Outcome :=
  s.block.onRunning fun id e =>
    match e.operand m1 1 with
    | .error r => .next (.of (s.block.raise id e r))
    | .ok v => .next (.of ((s.block.consume id v).setEngine id (if e.fb then e.suspend else e.advance 2)))

end Sys2Proof.Machine
end

