-- ==== Sys2Proof/Machine/Step.lean ====
section
/-! DEFINITION. One step of the block (log 5): an engine cycle of the active call, the return of an ended engine loop,
or a call of the host. A run that does not end is an endless sequence of steps (00_scope.md R13, 40_engine_cycle.md
R97). -/

namespace Sys2Proof.Machine

/-- The step. A cycle fetches, decodes and dispatches (40_engine_cycle.md R83); a fault raised before dispatch enters
Faulted (60_exceptions.md R155). -/
def step (s : State) : Host.Outcome State Fault Refusal :=
  match s.block.activity.engineId with
  | none => s.block.hostStep
  | some id =>
    match s.block.engine? id with
    | none => .fault .noRunningEngine
    | some e =>
      if e.status = .running then
        match e.fetch with
        | .ok i => exec i s
        | .error r => .next (.of (s.block.raise id e r))
      else s.block.returnStep

/-- The state whose next step runs the given instruction, in words of the machine's width: the host's engine fresh from
an image of its words, with the host's `run()` of it active (log 13). -/
def State.withFetchWord (s : State) (nbits w : Nat) : State :=
  .of { s.block with
    host := { s.block.host with engine := Engine.fresh (fetchImage nbits w) s.block.host.engine.fb }
    activity := .engine .host }

end Sys2Proof.Machine
end

