-- ==== Sys2Proof/Machine/Assembler.lean ====
section
/-! DEFINITION. The spec's assembly language and its pseudo-instructions (30_encoding.md R74, R76, R77): the words a
program's lines stand for, and how a line is written. The machine does not use it; it is how the spec writes its
programs. -/

namespace Sys2Proof.Machine

variable {W : Nat}

/-- Why a list of lines stands for no program (log 19: the spec names none of these cases). -/
inductive AsmError where
  | undefinedLabel (name : String)
  | duplicateLabels
  /-- A number outside `[-2^(W-1), 2^(W-1) - 1]`, the range of a word (00_scope.md R7). -/
  | notAWord (v : Int)
  deriving DecidableEq, Repr

/-- A pseudo-instruction's expansion; every other line stands for itself (30_encoding.md R77). -/
def expandLine : AsmLine → AsmLine
  | .mov s d => .add s (.imm (.lit 0)) d
  | .clr d => .add (.imm (.lit 0)) (.imm (.lit 0)) d
  | .neg s d => .mul s (.imm (.lit (-1))) d
  | .jmp t => .jt (.imm (.lit 1)) t
  | .nop => .jf (.imm (.lit 1)) (.imm (.lit 0))
  | l => l

/-- The mode a source operand is written in: `#v` is Immediate, `[a]` is Position (30_encoding.md R76). -/
def srcMode : AsmSrc → Mode
  | .imm _ => .immediate
  | .pos _ => .position

/-- The number that becomes a source operand's parameter word (30_encoding.md R76). -/
def srcNum : AsmSrc → AsmNum
  | .imm v => v
  | .pos a => a

/-- The instruction of an expanded line and the numbers of its parameter words; none for a label, a `.word` line or a
pseudo-instruction (30_encoding.md R74, R76). -/
def lineInstr : AsmLine → Option (Instr × List AsmNum)
  | .add s1 s2 d => some (.add (srcMode s1) (srcMode s2), [srcNum s1, srcNum s2, d])
  | .mul s1 s2 d => some (.mul (srcMode s1) (srcMode s2), [srcNum s1, srcNum s2, d])
  | .inp d => some (.inp, [d])
  | .out s => some (.out (srcMode s), [srcNum s])
  | .jt c t => some (.jt (srcMode c) (srcMode t), [srcNum c, srcNum t])
  | .jf c t => some (.jf (srcMode c) (srcMode t), [srcNum c, srcNum t])
  | .lt s1 s2 d => some (.lt (srcMode s1) (srcMode s2), [srcNum s1, srcNum s2, d])
  | .eq s1 s2 d => some (.eq (srcMode s1) (srcMode s2), [srcNum s1, srcNum s2, d])
  | .hlt => some (.hlt, [])
  | .labelled _ => none
  | .word _ => none
  | .mov _ _ => none
  | .clr _ => none
  | .neg _ _ => none
  | .jmp _ => none
  | .nop => none

/-- How many words a line emits (30_encoding.md R62, R76). -/
def lineLength (l : AsmLine) : Nat :=
  match lineInstr (expandLine l) with
  | some (_, ns) => ns.length + 1
  | none =>
    match l with
    | .word vs => vs.length
    | _ => 0

/-- The labels of a program whose first word stands at address `a`, each with the address of the next word
(30_encoding.md R76). -/
def labelTable (a : Nat) : List AsmLine → List (String × Nat)
  | [] => []
  | .labelled name :: ls => (name, a) :: labelTable a ls
  | l :: ls => labelTable (a + lineLength l) ls

/-- The word of `W` bits with a given value, where there is one (00_scope.md R7). -/
def wordOf (v : Int) : Except AsmError (Word W) :=
  if (wrap v : Word W).toInt = v then .ok (wrap v) else .error (.notAWord v)

/-- The word a number stands for (30_encoding.md R76). -/
def numWord (labels : List (String × Nat)) : AsmNum → Except AsmError (Word W)
  | .lit v => wordOf v
  | .label name =>
    match labels.lookup name with
    | some a => wordOf a
    | none => .error (.undefinedLabel name)

/-- The words of a list of numbers. -/
def numWords (labels : List (String × Nat)) : List AsmNum → Except AsmError (List (Word W))
  | [] => .ok []
  | n :: ns =>
    match numWord labels n with
    | .error x => .error x
    | .ok w =>
      match numWords labels ns with
      | .error x => .error x
      | .ok ws => .ok (w :: ws)

/-- The words of one line: an instruction's opcode word and parameter words (30_encoding.md R74, R76). A line whose
numbers are not all words of `W` bits has none. -/
def lineWords (labels : List (String × Nat)) (l : AsmLine) : Except AsmError (List (Word W)) :=
  match lineInstr (expandLine l) with
  | some (i, ns) => numWords labels (.lit i.opcodeNumber :: ns)
  | none =>
    match l with
    | .word vs => numWords labels vs
    | _ => .ok []

/-- The words of some lines under a label table. -/
def linesWords (labels : List (String × Nat)) : List AsmLine → Except AsmError (List (Word W))
  | [] => .ok []
  | l :: ls =>
    match lineWords labels l with
    | .error x => .error x
    | .ok ws =>
      match linesWords labels ls with
      | .error x => .error x
      | .ok rest => .ok (ws ++ rest)

/-- The program image a list of lines stands for, its first word at address 0 (30_encoding.md R76). -/
def assemble (ls : List AsmLine) : Except AsmError (List (Word W)) :=
  let labels := labelTable 0 ls
  if (labels.map (·.1)).Nodup then linesWords labels ls else .error .duplicateLabels

/-- A number as written. -/
def showNum : AsmNum → String
  | .lit v => toString v
  | .label name => name

/-- A source operand as written. -/
def showSrc : AsmSrc → String
  | .imm v => "#" ++ showNum v
  | .pos a => "[" ++ showNum a ++ "]"

/-- A destination as written. -/
def showDest (d : AsmNum) : String := "[" ++ showNum d ++ "]"

/-- A line as written: the mnemonic, then the operands separated by commas (30_encoding.md R76). -/
def showLine : AsmLine → String
  | .labelled name => name ++ ":"
  | .word vs => ".word " ++ String.intercalate ", " (vs.map showNum)
  | .add s1 s2 d => "ADD " ++ showSrc s1 ++ ", " ++ showSrc s2 ++ ", " ++ showDest d
  | .mul s1 s2 d => "MUL " ++ showSrc s1 ++ ", " ++ showSrc s2 ++ ", " ++ showDest d
  | .inp d => "IN " ++ showDest d
  | .out s => "OUT " ++ showSrc s
  | .jt c t => "JT " ++ showSrc c ++ ", " ++ showSrc t
  | .jf c t => "JF " ++ showSrc c ++ ", " ++ showSrc t
  | .lt s1 s2 d => "LT " ++ showSrc s1 ++ ", " ++ showSrc s2 ++ ", " ++ showDest d
  | .eq s1 s2 d => "EQ " ++ showSrc s1 ++ ", " ++ showSrc s2 ++ ", " ++ showDest d
  | .hlt => "HLT"
  | .mov s d => "MOV " ++ showSrc s ++ ", " ++ showDest d
  | .clr d => "CLR " ++ showDest d
  | .neg s d => "NEG " ++ showSrc s ++ ", " ++ showDest d
  | .jmp t => "JMP " ++ showSrc t
  | .nop => "NOP"

end Sys2Proof.Machine
end

