-- ==== Sys2Proof/Safety.lean ====
section
/-! DEFINITION. The terms the statements use: when an engine executes a cycle, what a parameter is in terms of storage
alone, what a cycle leaves alone, and the invariant of the block. -/

namespace Sys2Proof.Machine

variable {W : Nat}

/-! ### A cycle -/

/-- The active call executes cycles of engine `id`, whose state is `e` and whose status is Running (40_engine_cycle.md
R83). -/
def Executes (s : Block W) (id : EngineId) (e : Engine W) : Prop :=
  s.activity.engineId = some id ∧ s.engine? id = some e ∧ e.status = .running

/-! ### Parameters, in terms of storage alone -/

/-- Source parameter `k` of the instruction at `pc`, in mode `m`, has the value `v` (20_memory.md R45, 30_encoding.md
R66). -/
def Engine.SourceIs (e : Engine W) (m : Mode) (k : Nat) (v : Word W) : Prop :=
  ∃ pw, e.mem.read (e.pc + k) = some pw ∧
    match m with
    | .position => e.mem.read pw.toInt = some v
    | .immediate => v = pw
    | .invalid _ => False

/-- Source parameter `k` in mode `m` does not resolve, and `r` is the fault (20_memory.md R43, R45, 30_encoding.md
R68). -/
def Engine.SourceFails (e : Engine W) (m : Mode) (k : Nat) (r : FaultRecord W) : Prop :=
  (e.mem.read (e.pc + k) = none ∧ r = .outOfRange (e.pc + k) e.pc .parameter) ∨
  ∃ pw, e.mem.read (e.pc + k) = some pw ∧
    match m with
    | .position => e.mem.read pw.toInt = none ∧ r = .outOfRange pw.toInt e.pc .operand
    | .immediate => False
    | .invalid d => r = .illegalMode d k e.pc

/-- Destination parameter `k` names the existing address `d` (20_memory.md R46). -/
def Engine.DestinationIs (e : Engine W) (k : Nat) (d : Int) : Prop :=
  (∃ pw, e.mem.read (e.pc + k) = some pw ∧ d = pw.toInt) ∧ e.mem.inRange d

/-- Destination parameter `k` does not resolve, and `r` is the fault (20_memory.md R43, R44, R46). -/
def Engine.DestinationFails (e : Engine W) (k : Nat) (r : FaultRecord W) : Prop :=
  (e.mem.read (e.pc + k) = none ∧ r = .outOfRange (e.pc + k) e.pc .parameter) ∨
  ∃ pw, e.mem.read (e.pc + k) = some pw ∧ ¬ e.mem.inRange pw.toInt ∧
    r = .outOfRange pw.toInt e.pc .destination

/-- `r` is the fault of the first parameter of format F3 that does not resolve (60_exceptions.md R159). -/
def Engine.ThreeFail (e : Engine W) (m1 m2 : Mode) (r : FaultRecord W) : Prop :=
  e.SourceFails m1 1 r ∨
  (∃ a, e.SourceIs m1 1 a ∧ e.SourceFails m2 2 r) ∨
  (∃ a b, e.SourceIs m1 1 a ∧ e.SourceIs m2 2 b ∧ e.DestinationFails 3 r)

/-- `r` is the fault of the first parameter of format F2S that does not resolve (60_exceptions.md R159). -/
def Engine.TwoFail (e : Engine W) (m1 m2 : Mode) (r : FaultRecord W) : Prop :=
  e.SourceFails m1 1 r ∨ (∃ c, e.SourceIs m1 1 c ∧ e.SourceFails m2 2 r)

/-! ### What a cycle leaves alone -/

/-- Everything of the block but its engines is unchanged: an amplifier with its engine put back is the amplifier from
before. -/
def KeepsAllButEngines (s t : Block W) : Prop :=
  t.host.inputs = s.host.inputs ∧ t.host.outputs = s.host.outputs ∧
  t.circuit.signal = s.circuit.signal ∧ t.circuit.fbMode = s.circuit.fbMode ∧
  t.activity = s.activity ∧ t.calls = s.calls ∧ t.reply = s.reply ∧ t.freeCount = s.freeCount ∧
  t.circuit.amps.length = s.circuit.amps.length ∧
  ∀ (i : Nat) (a : Amplifier W), s.circuit.amps[i]? = some a →
    ∃ a' : Amplifier W, t.circuit.amps[i]? = some a' ∧ { a' with engine := a.engine } = a

/-- The block with the amplifier `a` at ring position `i`, and nothing else changed. -/
def Block.putAmp (s : Block W) (i : Nat) (a : Amplifier W) : Block W :=
  { s with circuit := { s.circuit with amps := s.circuit.amps.set i a } }

/-- Every engine but `id` is unchanged. -/
def KeepsOtherEngines (s t : Block W) (id : EngineId) : Prop :=
  ∀ id', id' ≠ id → t.engine? id' = s.engine? id'

/-- Every address of the storage reads as before. -/
def KeepsStorage (e e' : Engine W) : Prop := ∀ x, e'.mem.read x = e.mem.read x

/-! ### The invariant -/

/-- A recorded fault says something true of the engine that recorded it: the addresses are outside its storage, the
`pc` is the one it stopped at, and only faults that are recorded in an engine stand there (60_exceptions.md R151,
R155, R156). -/
def FaultRecord.Describes (r : FaultRecord W) (e : Engine W) : Prop :=
  match r with
  | .outOfRange a pc _ => pc = e.pc ∧ ¬ e.mem.inRange a
  | .unsupportedOpcode x w pc => pc = e.pc ∧ decode w = .error (.unknown x)
  | .callerMisuse m => m ≠ .emptyRing
  | .illegalMode d k pc => pc = e.pc ∧ 2 ≤ d ∧ d ≤ 9 ∧ 1 ≤ k ∧ k ≤ 2
  | .noOutput _ => False
  | .ringDesync _ => False

/-- The invariant of an engine: the length bound (00_scope.md R7); a fault is recorded exactly while Faulted and is
true of the engine (10_state.md R20); a Halted engine stands at the sentinel (44_control.md R109); a Suspended one
stands at the two words of its OUT (10_state.md R18). -/
def Engine.Inv (e : Engine W) : Prop :=
  e.mem.wf = true ∧
  (e.status = .faulted ↔ e.fault.isSome = true) ∧
  (∀ r, e.fault = some r → r.Describes e) ∧
  (e.status = .halted → e.pc = e.mem.length) ∧
  (e.status = .suspended → 0 ≤ e.pc ∧ e.pc + 1 < e.mem.length)

/-- The invariant of an amplifier: its engine's; the storage has the image's length (20_memory.md R50); a Finished
amplifier's engine executes nothing more (45_amplifier.md R115, R118); a Suspended one has emitted (43_io.md R106). -/
def Amplifier.Inv (a : Amplifier W) : Prop :=
  a.engine.Inv ∧
  a.engine.mem.length = a.image.length ∧
  (a.inState = .finished → a.engine.status = .halted ∨ a.engine.status = .faulted) ∧
  (a.engine.status = .suspended → a.lastOut.isSome = true)

/-- The active call names what exists. Inside an amplifier's `run(x)` a pending input is recorded (10_state.md R34);
inside a circuit run it is the carried signal, and every engine has the run's feedback flag, so that none is Suspended
without it (46_feedback_circuit.md R132 to R134). -/
def Block.ActivityInv (s : Block W) : Prop :=
  match s.activity with
  | .idle => True
  | .engine id => (s.engine? id).isSome = true
  | .amplifier i => ∃ a, s.circuit.amps[i]? = some a ∧ a.pending.isSome = true
  | .circuit i =>
    (∃ a, s.circuit.amps[i]? = some a ∧ a.pending = some s.circuit.signal) ∧
    ∀ a ∈ s.circuit.amps, a.engine.fb = s.circuit.fbMode ∧
      (a.engine.status = .suspended → s.circuit.fbMode = true)

/-- The invariant of the block. -/
def Block.Inv (s : Block W) : Prop :=
  s.host.engine.Inv ∧ (∀ a ∈ s.circuit.amps, a.Inv) ∧ s.ActivityInv

/-- The invariant of the machine: its block's, at whatever width it has. -/
def State.Inv (s : State) : Prop := s.block.Inv

/-- The host calls that construct or reset engine `id` (40_engine_cycle.md R94, R95, 45_amplifier.md R112, R121,
46_feedback_circuit.md R131, R132). -/
def HostCall.rebuilds (id : EngineId) : HostCall W → Bool
  | .constructEngine _ _ => decide (id = .host)
  | .resetEngine _ => decide (id = .host)
  | .constructAmplifier _ _ => decide (id ≠ .host)
  | .constructCircuit _ _ => decide (id ≠ .host)
  | .circuitRun _ _ => decide (id ≠ .host)
  | .amplifierReset i => decide (id = .ring i)
  | .setFeedback _ _ => false
  | .run _ => false
  | .resume _ => false
  | .readAddress _ _ => false
  | .readWords _ _ _ => false
  | .poke _ _ _ => false
  | .engineStatus _ => false
  | .amplifierRun _ _ => false
  | .amplifierStatus _ => false

/-- A host call the spec does not give: it names a unit that was not constructed, or its image is longer than a
storage can be (log 17). -/
def HostCall.Impossible (s : Block W) : HostCall W → Prop
  | .constructEngine P _ => Config.maxLength W < P.length
  | .constructAmplifier P _ => Config.maxLength W < P.length
  | .constructCircuit P phases => phases ≠ [] ∧ Config.maxLength W < P.length
  | .resetEngine P => Config.maxLength W < P.length
  | .setFeedback id _ => s.engine? id = none
  | .run id => s.engine? id = none
  | .resume id => s.engine? id = none
  | .readAddress id _ => s.engine? id = none
  | .readWords id _ _ => s.engine? id = none
  | .poke id _ _ => s.engine? id = none
  | .engineStatus id => s.engine? id = none
  | .amplifierRun i _ => s.circuit.amps[i]? = none
  | .amplifierReset i => s.circuit.amps[i]? = none
  | .amplifierStatus i => s.circuit.amps[i]? = none
  | .circuitRun _ _ => s.circuit.amps = []

end Sys2Proof.Machine
end

