-- ==== Sys2Proof/Certificates/Slice0/Obligations.lean ====
section
/-! DEFINITION. The statements for the provers. Each docstring names the rule of spec/ the statement formalises. Where a
rule is marked there as the spec's own decision D<n> or as derived, or where a clause rests on an entry of the model's
log, the docstring says so. -/

open Sys2Proof Sys2Proof.Machine

/-! ### Encoding -/

/-- 30_encoding.md R65, R74 (derived), R62, R73: in every width that has the instruction's opcode word (every width from
15 bits has them all), decoding the words of a well-formed instruction gives the instruction, its parameter words and the
words after it. The encoding of an `invalid` mode's digit is the model's (log 4). -/
def Obligations.DecodeOfEncodeIsTheInstruction : Prop :=
  ∀ (W : Nat) (i : Instr) (params rest : List (Word W)), i.wf = true → i.opcodeNumber < 2 ^ (W - 1) →
    params.length = i.arity →
    decode (opcodeWord i : Word W) = .ok i ∧
    disassemble (encode i params ++ rest) = some (i, params, rest)

/-- The other direction of the round trip (30_encoding.md R61, R67): a word that decodes to `i` is not negative (D4),
and the word `encode` gives for `i` is that word with only its consulted digits kept (digits above the last parameter are
D6). For a consulted digit 2 to 9, an `invalid` mode (D5), the digit the encoder writes is the model's choice (log 4). -/
def Obligations.EncodedWordKeepsTheConsultedDigits : Prop :=
  ∀ (W : Nat) (w : Word W) (i : Instr), decode w = .ok i →
    i.wf = true ∧ 0 ≤ w.toInt ∧
    (opcodeWord i : Word W).toNat = w.toNat % (match i with
      | .add _ _ => 10000
      | .mul _ _ => 10000
      | .inp => 100
      | .out _ => 1000
      | .jt _ _ => 10000
      | .jf _ _ => 10000
      | .lt _ _ => 10000
      | .eq _ _ => 10000
      | .hlt => 100)

/-- The decoder's table (30_encoding.md R64, R65, R71; negative words are D4): each opcode value selects its
instruction with the modes of digits 2 and 3; every other word is Unknown, with the value the engine reports. -/
def Obligations.DecodeFollowsTheOpcodeTable : Prop :=
  ∀ (W : Nat) (w : Word W),
    (w.toInt < 0 → decode w = .error (.unknown w.toInt)) ∧
    (0 ≤ w.toInt →
      let n := w.toNat
      let m1 := modeOf (n / 100 % 10)
      let m2 := modeOf (n / 1000 % 10)
      (n % 100 = 1 → decode w = .ok (.add m1 m2)) ∧
      (n % 100 = 2 → decode w = .ok (.mul m1 m2)) ∧
      (n % 100 = 3 → decode w = .ok .inp) ∧
      (n % 100 = 4 → decode w = .ok (.out m1)) ∧
      (n % 100 = 5 → decode w = .ok (.jt m1 m2)) ∧
      (n % 100 = 6 → decode w = .ok (.jf m1 m2)) ∧
      (n % 100 = 7 → decode w = .ok (.lt m1 m2)) ∧
      (n % 100 = 8 → decode w = .ok (.eq m1 m2)) ∧
      (n % 100 = 99 → decode w = .ok .hlt) ∧
      (n % 100 = 0 ∨ 9 ≤ n % 100 ∧ n % 100 ≤ 98 → decode w = .error (.unknown (n % 100 : Nat))))

/-- Ignored digits (30_encoding.md R67, R69; digits above the last parameter are D6): two non-negative words with the
same opcode digits and the same consulted mode digits decode alike. -/
def Obligations.UnconsultedDigitsAreIgnored : Prop :=
  ∀ (W : Nat) (v w : Word W), 0 ≤ v.toInt → 0 ≤ w.toInt → v.toNat % 100 = w.toNat % 100 →
    (v.toNat % 100 = 3 ∨ v.toNat % 100 = 99 → decode v = decode w) ∧
    (v.toNat % 100 = 4 → digit 2 v.toNat = digit 2 w.toNat → decode v = decode w) ∧
    (digit 2 v.toNat = digit 2 w.toNat → digit 3 v.toNat = digit 3 w.toNat → decode v = decode w)

/-- Words written out from the decoding examples (30_encoding.md R75, derived): what they decode to, in every width
that has them. -/
def Obligations.WrittenWordsDecode : Prop :=
  ∀ W : Nat, 12 ≤ W →
    decode (wrap 3 : Word W) = .ok .inp ∧
    decode (wrap 8 : Word W) = .ok (.eq .position .position) ∧
    decode (wrap 1108 : Word W) = .ok (.eq .immediate .immediate) ∧
    decode (wrap 1006 : Word W) = .ok (.jf .position .immediate) ∧
    decode (wrap 1 : Word W) = .ok (.add .position .position) ∧
    decode (wrap 1002 : Word W) = .ok (.mul .position .immediate) ∧
    decode (wrap 4 : Word W) = .ok (.out .position) ∧
    decode (wrap 99 : Word W) = .ok .hlt ∧
    decode (wrap (-1) : Word W) = .error (.unknown (-1))

/-- The pseudo-instructions' encodings (30_encoding.md R77, derived), for every operand value in every width that has the
opcode words. -/
def Obligations.PseudoInstructionsEncode : Prop :=
  ∀ (W : Nat) (x d : Word W), 12 ≤ W →
    let X : AsmNum := .lit x.toInt
    let D : AsmNum := .lit d.toInt
    lineWords [] (.mov (.imm X) D) = .ok [wrap 1101, x, wrap 0, d] ∧
    lineWords [] (.mov (.pos X) D) = .ok [wrap 1001, x, wrap 0, d] ∧
    lineWords (W := W) [] (.clr D) = .ok [wrap 1101, wrap 0, wrap 0, d] ∧
    lineWords [] (.neg (.imm X) D) = .ok [wrap 1102, x, wrap (-1), d] ∧
    lineWords [] (.neg (.pos X) D) = .ok [wrap 1002, x, wrap (-1), d] ∧
    lineWords [] (.jmp (.imm X)) = .ok [wrap 1105, wrap 1, x] ∧
    lineWords [] (.jmp (.pos X)) = .ok [wrap 105, wrap 1, x] ∧
    lineWords (W := W) [] .nop = .ok [wrap 1106, wrap 1, wrap 0]

/-- Assembly and disassembly agree (30_encoding.md R74, R76): the words of an assembled line disassemble to its
instruction with its resolved numbers as parameter words. -/
def Obligations.AssembledLineDisassembles : Prop :=
  ∀ (W : Nat) (labels : List (String × Nat)) (l : AsmLine) (i : Instr) (ns : List AsmNum) (ws rest : List (Word W)),
    lineInstr (expandLine l) = some (i, ns) → lineWords labels l = .ok ws →
    ∃ ps, numWords labels ns = .ok ps ∧ disassemble (ws ++ rest) = some (i, ps, rest)

/-! ### Storage -/

/-- 20_memory.md R43: a read inside `[0, L)` gives the word there and changes nothing; any other raises OutOfRange with
the address. -/
def Obligations.ReadIsBoundsChecked : Prop :=
  ∀ (W : Nat) (e : Engine W) (a : Int) (x : Access),
    (0 ≤ a → a < e.mem.length → ∃ v, e.mem[a.toNat]? = some v ∧ e.memRead a x = .ok v) ∧
    (a < 0 ∨ (e.mem.length : Int) ≤ a → e.memRead a x = .error (.outOfRange a e.pc x))

/-- 20_memory.md R44: a write inside `[0, L)` is read back, leaves every other address, the length and the rest of the
engine; any other raises OutOfRange and writes nothing. -/
def Obligations.WriteIsBoundsChecked : Prop :=
  ∀ (W : Nat) (e : Engine W) (a : Int) (v : Word W) (x : Access),
    (0 ≤ a → a < e.mem.length → ∃ e', e.memWrite a v x = .ok e' ∧
      e'.mem.read a = some v ∧ (∀ b, b ≠ a → e'.mem.read b = e.mem.read b) ∧
      e'.mem.length = e.mem.length ∧ { e' with mem := e.mem } = e) ∧
    (a < 0 ∨ (e.mem.length : Int) ≤ a → e.memWrite a v x = .error (.outOfRange a e.pc x))

/-- 20_memory.md R50: no step changes the length of an engine's storage, but for the construction of that engine and
`reset(P)`. The invariant is a premise: an amplifier reset copies an image of the storage's own length. -/
def Obligations.StorageNeverGrowsOrShrinks : Prop :=
  ∀ (W : Nat) (s t : Block W) (id : EngineId) (e e' : Engine W), s.Inv → step (.of s) = .next (.of t) →
    s.engine? id = some e → t.engine? id = some e' →
    e'.mem.length = e.mem.length ∨
    (s.activity = .idle ∧ id = .host ∧
      ((∃ P ins, s.calls.head? = some (.constructEngine P ins)) ∨
        ∃ P, s.calls.head? = some (.resetEngine P))) ∨
    (s.activity = .idle ∧ id ≠ .host ∧
      ((∃ P ph, s.calls.head? = some (.constructAmplifier P ph)) ∨
        ∃ P phs, s.calls.head? = some (.constructCircuit P phs)))

/-! ### Operands -/

/-- 20_memory.md R45 (its Invalid arm is D5), 30_encoding.md R66, R68, R70: a source parameter resolves to what storage
says, or raises the fault of the first check that fails; exactly one of the two is the case. -/
def Obligations.SourceParameterResolves : Prop :=
  ∀ (W : Nat) (e : Engine W) (m : Mode) (k : Nat),
    (∀ v, e.SourceIs m k v → e.operand m k = .ok v) ∧
    (∀ r, e.SourceFails m k r → e.operand m k = .error r) ∧
    ((∃ v, e.SourceIs m k v) ↔ ¬ ∃ r, e.SourceFails m k r)

/-- 20_memory.md R46 (derived), 40_engine_cycle.md R87: a destination parameter is the parameter word itself, checked
against the storage's bounds. -/
def Obligations.DestinationParameterResolves : Prop :=
  ∀ (W : Nat) (e : Engine W) (k : Nat),
    (∀ d, e.DestinationIs k d → e.destination k = .ok d) ∧
    (∀ r, e.DestinationFails k r → e.destination k = .error r) ∧
    ((∃ d, e.DestinationIs k d) ↔ ¬ ∃ r, e.DestinationFails k r)

/-! ### What each instruction does -/

/-- 41_arithmetic.md R101 (the wrap is D2): ADD writes the wrapped exact sum and advances by 4. -/
def Obligations.AddWritesTheWrappedSum : Prop :=
  ∀ (W : Nat) (s : Block W) (id : EngineId) (e : Engine W) (m1 m2 : Mode) (a b : Word W) (d : Int),
    Executes s id e → e.SourceIs m1 1 a → e.SourceIs m2 2 b → e.DestinationIs 3 d →
    exec (.add m1 m2) (.of s) =
      .next (.of (s.setEngine id { e with mem := e.mem.write d (wrap (a.toInt + b.toInt)), pc := e.pc + 4 }))

/-- 41_arithmetic.md R102 (the wrap is D2): MUL writes the wrapped exact product and advances by 4. -/
def Obligations.MulWritesTheWrappedProduct : Prop :=
  ∀ (W : Nat) (s : Block W) (id : EngineId) (e : Engine W) (m1 m2 : Mode) (a b : Word W) (d : Int),
    Executes s id e → e.SourceIs m1 1 a → e.SourceIs m2 2 b → e.DestinationIs 3 d →
    exec (.mul m1 m2) (.of s) =
      .next (.of (s.setEngine id { e with mem := e.mem.write d (wrap (a.toInt * b.toInt)), pc := e.pc + 4 }))

/-- 42_compare.md R103: LT, from its opcode word to its effect. The word `B*1000 + A*100 + 7` selects it, whatever the
digit of p3 and (D6) the digits above it are; it writes 1 if `a < b` as signed words, else 0, and advances by 4; the first
parameter that does not resolve (the order is D10, an invalid mode D5) raises its fault, with no other effect. -/
def Obligations.LessThanComparesSigned : Prop :=
  (∀ (W : Nat) (w : Word W), 0 ≤ w.toInt → w.toNat % 100 = 7 →
    decode w = .ok (.lt (modeOf (w.toNat / 100 % 10)) (modeOf (w.toNat / 1000 % 10)))) ∧
  (∀ (W : Nat) (s : Block W) (id : EngineId) (e : Engine W) (m1 m2 : Mode) (a b : Word W) (d : Int),
    Executes s id e → e.SourceIs m1 1 a → e.SourceIs m2 2 b → e.DestinationIs 3 d →
    exec (.lt m1 m2) (.of s) =
      .next (.of (s.setEngine id
        { e with mem := e.mem.write d (if a.toInt < b.toInt then 1 else 0), pc := e.pc + 4 }))) ∧
  (∀ (W : Nat) (s : Block W) (id : EngineId) (e : Engine W) (m1 m2 : Mode) (r : FaultRecord W),
    Executes s id e → e.ThreeFail m1 m2 r →
    exec (.lt m1 m2) (.of s) = .next (.of (s.setEngine id { e with status := .faulted, fault := some r })))

/-- 42_compare.md R104: EQ, from its opcode word to its effect. The word `B*1000 + A*100 + 8` selects it, whatever the
digit of p3 and (D6) the digits above it are; it writes 1 if the words are equal, else 0, and advances by 4; the first
parameter that does not resolve (the order is D10, an invalid mode D5) raises its fault, with no other effect. -/
def Obligations.EqualsComparesWholeWords : Prop :=
  (∀ (W : Nat) (w : Word W), 0 ≤ w.toInt → w.toNat % 100 = 8 →
    decode w = .ok (.eq (modeOf (w.toNat / 100 % 10)) (modeOf (w.toNat / 1000 % 10)))) ∧
  (∀ (W : Nat) (s : Block W) (id : EngineId) (e : Engine W) (m1 m2 : Mode) (a b : Word W) (d : Int),
    Executes s id e → e.SourceIs m1 1 a → e.SourceIs m2 2 b → e.DestinationIs 3 d →
    exec (.eq m1 m2) (.of s) =
      .next (.of (s.setEngine id { e with mem := e.mem.write d (if a = b then 1 else 0), pc := e.pc + 4 }))) ∧
  (∀ (W : Nat) (s : Block W) (id : EngineId) (e : Engine W) (m1 m2 : Mode) (r : FaultRecord W),
    Executes s id e → e.ThreeFail m1 m2 r →
    exec (.eq m1 m2) (.of s) = .next (.of (s.setEngine id { e with status := .faulted, fault := some r })))

/-- 43_io.md R105 on the host's engine: IN stores the word the host's source supplies and advances by 2. The words
beyond the listed ones are free values (log 9), and the statement holds whatever they are. -/
def Obligations.InputFromTheHostSource : Prop :=
  ∀ (W : Nat) (s : Block W) (e : Engine W) (d : Int), Executes s .host e → e.DestinationIs 1 d →
    (∀ v vs, s.host.inputs = v :: vs →
      exec .inp (.of s) = .next (.of { s with host :=
        { engine := { e with mem := e.mem.write d v, pc := e.pc + 2 }
          inputs := vs, outputs := s.host.outputs } })) ∧
    (s.host.inputs = [] →
      exec .inp (.of s) = .next (.of { s with
        host := { engine := { e with mem := e.mem.write d (Config.freeWord W s.freeCount), pc := e.pc + 2 }
                  inputs := [], outputs := s.host.outputs }
        freeCount := s.freeCount + 1 }))

/-- 43_io.md R105 with the amplifier's source of 45_amplifier.md R115 (its fault arms are D30): the first request gets
the phase, every later one the pending word, which is not consumed. -/
def Obligations.InputFromTheAmplifier : Prop :=
  ∀ (W : Nat) (s : Block W) (i : Nat) (a : Amplifier W) (d : Int),
    s.activity.engineId = some (.ring i) → s.circuit.amps[i]? = some a →
    a.engine.status = .running → a.engine.DestinationIs 1 d →
    let got (v : Word W) : Engine W := { a.engine with mem := a.engine.mem.write d v, pc := a.engine.pc + 2 }
    let failed (m : Misuse) : Engine W :=
      { a.engine with status := .faulted, fault := some (.callerMisuse m) }
    (a.inState = .awaitingPhase →
      exec .inp (.of s) = .next (.of (s.putAmp i { a with inState := .phaseDelivered, engine := got a.phase }))) ∧
    (∀ v, a.inState = .phaseDelivered → a.pending = some v →
      exec .inp (.of s) = .next (.of (s.putAmp i { a with engine := got v }))) ∧
    (a.inState = .phaseDelivered → a.pending = none →
      exec .inp (.of s) = .next (.of (s.putAmp i { a with engine := failed .noPendingInput }))) ∧
    (a.inState = .finished →
      exec .inp (.of s) = .next (.of (s.putAmp i { a with engine := failed .inputAfterHalt })))

/-- 43_io.md R106, 45_amplifier.md R116: OUT, from its opcode word `A*100 + 4`, whatever the digits above are (D6), to
its effect. It calls the sink once; with `fb` the engine suspends at this OUT, without it `pc` advances by 2. On the
host's engine the sink is the host's, which the model records as a list (log 10); in a ring it is the amplifier's. An
operand that does not resolve (an invalid mode is D5) raises its fault, with no sink called. -/
def Obligations.OutputEmitsAndSuspendsInFeedbackMode : Prop :=
  (∀ (W : Nat) (w : Word W), 0 ≤ w.toInt → w.toNat % 100 = 4 →
    decode w = .ok (.out (modeOf (w.toNat / 100 % 10)))) ∧
  (∀ (W : Nat) (s : Block W) (e : Engine W) (m : Mode) (v : Word W), Executes s .host e → e.SourceIs m 1 v →
    exec (.out m) (.of s) = .next (.of { s with host :=
      { engine := if e.fb then { e with status := .suspended } else { e with pc := e.pc + 2 }
        inputs := s.host.inputs, outputs := s.host.outputs ++ [v] } })) ∧
  (∀ (W : Nat) (s : Block W) (i : Nat) (a : Amplifier W) (m : Mode) (v : Word W),
    s.activity.engineId = some (.ring i) → s.circuit.amps[i]? = some a →
    a.engine.status = .running → a.engine.SourceIs m 1 v →
    exec (.out m) (.of s) = .next (.of (s.putAmp i
      { a with lastOut := some v
               engine := if a.engine.fb then { a.engine with status := .suspended }
                         else { a.engine with pc := a.engine.pc + 2 } }))) ∧
  (∀ (W : Nat) (s : Block W) (id : EngineId) (e : Engine W) (m : Mode) (r : FaultRecord W),
    Executes s id e → e.SourceFails m 1 r →
    exec (.out m) (.of s) = .next (.of (s.setEngine id { e with status := .faulted, fault := some r })))

/-- 44_control.md R107 (resolving the target of a jump that is not taken is D10): JT jumps on any non-zero condition,
otherwise advances by 3. -/
def Obligations.JumpIfTrue : Prop :=
  ∀ (W : Nat) (s : Block W) (id : EngineId) (e : Engine W) (m1 m2 : Mode) (c t : Word W),
    Executes s id e → e.SourceIs m1 1 c → e.SourceIs m2 2 t →
    exec (.jt m1 m2) (.of s) =
      .next (.of (s.setEngine id { e with pc := if c.toInt ≠ 0 then t.toInt else e.pc + 3 }))

/-- 44_control.md R108 (resolving the target of a jump that is not taken is D10): JF jumps on a zero condition,
otherwise advances by 3. -/
def Obligations.JumpIfFalse : Prop :=
  ∀ (W : Nat) (s : Block W) (id : EngineId) (e : Engine W) (m1 m2 : Mode) (c t : Word W),
    Executes s id e → e.SourceIs m1 1 c → e.SourceIs m2 2 t →
    exec (.jf m1 m2) (.of s) =
      .next (.of (s.setEngine id { e with pc := if c.toInt = 0 then t.toInt else e.pc + 3 }))

/-- 44_control.md R109 (the sentinel's value `L` is D7): HLT halts the engine. -/
def Obligations.HaltStopsAtTheSentinel : Prop :=
  ∀ (W : Nat) (s : Block W) (id : EngineId) (e : Engine W), Executes s id e →
    exec .hlt (.of s) = .next (.of (s.setEngine id { e with status := .halted, pc := e.mem.length }))

/-- Every instruction, in every mode, answers a next state from every state in which an engine executes: a fatal
condition is a next state too (60_exceptions.md R155). Where no engine executes there is no cycle (40_engine_cycle.md
R83); that the model answers a fault of its own there is log 18. -/
def Obligations.EveryInstructionAnswersWhereAnEngineExecutes : Prop :=
  ∀ (W : Nat) (i : Instr) (s : Block W),
    ((∃ id e, Executes s id e) → ∃ t : Block W, exec i (.of s) = .next (.of t)) ∧
    ((¬ ∃ id e, Executes s id e) → exec i (.of s) = .fault .noRunningEngine)

/-! ### Faults -/

/-- Fault entry and priority of format F3 (60_exceptions.md R155, R159, D8, D10; 41_arithmetic.md R101): the first
parameter that does not resolve gives the fault; memory, `pc` and `fb` stay. -/
def Obligations.ThreeParameterFaultsArePrecise : Prop :=
  ∀ (W : Nat) (s : Block W) (id : EngineId) (e : Engine W) (i : Instr) (m1 m2 : Mode) (r : FaultRecord W),
    i ∈ [Instr.add m1 m2, .mul m1 m2, .lt m1 m2, .eq m1 m2] →
    Executes s id e → e.ThreeFail m1 m2 r →
    exec i (.of s) = .next (.of (s.setEngine id { e with status := .faulted, fault := some r }))

/-- Fault entry and priority of the jumps (44_control.md R107, R108, 60_exceptions.md R159, D10): a target that does
not resolve faults whether or not the jump would be taken. -/
def Obligations.JumpFaultsArePreciseAndEager : Prop :=
  ∀ (W : Nat) (s : Block W) (id : EngineId) (e : Engine W) (i : Instr) (m1 m2 : Mode) (r : FaultRecord W),
    i ∈ [Instr.jt m1 m2, .jf m1 m2] → Executes s id e → e.TwoFail m1 m2 r →
    exec i (.of s) = .next (.of (s.setEngine id { e with status := .faulted, fault := some r }))

/-- A faulting IN does not call `supply()` and a faulting OUT does not call `consume` (43_io.md R105, R106,
60_exceptions.md R155, D11): nothing but the status and the fault changes. -/
def Obligations.FaultingInputAndOutputCallNothing : Prop :=
  ∀ (W : Nat) (s : Block W) (id : EngineId) (e : Engine W) (m : Mode) (r : FaultRecord W), Executes s id e →
    (e.DestinationFails 1 r →
      exec .inp (.of s) = .next (.of (s.setEngine id { e with status := .faulted, fault := some r }))) ∧
    (e.SourceFails m 1 r →
      exec (.out m) (.of s) = .next (.of (s.setEngine id { e with status := .faulted, fault := some r })))

/-- 40_engine_cycle.md R84 (derived), 44_control.md R110 (D4), 60_exceptions.md R153: a `pc` outside `[0, L)` raises
OutOfRange, and a fetched word that is no opcode word raises UnsupportedOpcode with the value, the word and `pc`. -/
def Obligations.FetchAndDispatchFaults : Prop :=
  ∀ (W : Nat) (s : Block W) (id : EngineId) (e : Engine W), Executes s id e →
    (e.pc < 0 ∨ (e.mem.length : Int) ≤ e.pc →
      step (.of s) = .next (.of (s.setEngine id
        { e with status := .faulted, fault := some (.outOfRange e.pc e.pc .fetch) }))) ∧
    (∀ w, e.mem.read e.pc = some w →
      (w.toInt < 0 →
        step (.of s) = .next (.of (s.setEngine id
          { e with status := .faulted, fault := some (.unsupportedOpcode w.toInt w e.pc) }))) ∧
      (0 ≤ w.toInt → w.toNat % 100 = 0 ∨ 9 ≤ w.toNat % 100 ∧ w.toNat % 100 ≤ 98 →
        step (.of s) = .next (.of (s.setEngine id
          { e with status := .faulted
                   fault := some (.unsupportedOpcode (w.toNat % 100 : Nat) w e.pc) }))))

/-! ### The cycle -/

/-- 40_engine_cycle.md R83: one step of a Running engine is its cycle. It reads the word at `pc`, decodes it, and is
exactly `exec` of the instruction; a word that is no opcode word, and a `pc` outside the storage, raise. -/
def Obligations.StepRunsTheDecodedInstruction : Prop :=
  ∀ (W : Nat) (s : Block W) (id : EngineId) (e : Engine W), Executes s id e →
    (∀ w i, e.mem.read e.pc = some w → decode w = .ok i → step (.of s) = exec i (.of s)) ∧
    (∀ w x, e.mem.read e.pc = some w → decode w = .error (.unknown x) → step (.of s) = .next (.of (s.setEngine id
      { e with status := .faulted, fault := some (.unsupportedOpcode x w e.pc) }))) ∧
    (e.mem.read e.pc = none → step (.of s) = .next (.of (s.setEngine id
      { e with status := .faulted, fault := some (.outOfRange e.pc e.pc .fetch) })))

/-- The width `W` is an argument of the machine (00_scope.md R7, D1), held as a field of its state (log 1): no
instruction and no step changes it. Every statement here is made for every width. -/
def Obligations.WidthNeverChanges : Prop :=
  ∀ s t : State,
    (∀ i, exec i s = .next t → t.width = s.width) ∧ (step s = .next t → t.width = s.width)

/-- Frame of ADD, MUL, LT and EQ (41_arithmetic.md, 42_compare.md, 40_engine_cycle.md R87): the one word stored is at
the address parameter 3 names; every other address, engine, amplifier field and register stays. -/
def Obligations.FrameOfArithmeticAndCompare : Prop :=
  ∀ (W : Nat) (s t : Block W) (id : EngineId) (e : Engine W) (i : Instr) (m1 m2 : Mode),
    i ∈ [Instr.add m1 m2, .mul m1 m2, .lt m1 m2, .eq m1 m2] →
    Executes s id e → exec i (.of s) = .next (.of t) →
    KeepsAllButEngines s t ∧ KeepsOtherEngines s t id ∧
    ∃ e', t.engine? id = some e' ∧ e'.fb = e.fb ∧ e'.mem.length = e.mem.length ∧
      (∀ d, e.destination 3 = .ok d → ∀ x, x ≠ d → e'.mem.read x = e.mem.read x) ∧
      (e'.status = .running ∧ e'.fault = e.fault ∨
        e'.status = .faulted ∧ e'.pc = e.pc ∧ KeepsStorage e e')

/-- Frame of IN (43_io.md R105, 45_amplifier.md R115): the one word stored is at the address parameter 1 names. In a
ring nothing else changes but the amplifier's `inState`; on the host's engine nothing else but its source. -/
def Obligations.FrameOfInput : Prop :=
  ∀ (W : Nat) (s t : Block W) (id : EngineId) (e : Engine W), Executes s id e → exec .inp (.of s) = .next (.of t) →
    KeepsOtherEngines s t id ∧
    t.host.outputs = s.host.outputs ∧ t.activity = s.activity ∧ t.calls = s.calls ∧ t.reply = s.reply ∧
    (id = .host → t.circuit = s.circuit) ∧
    (id ≠ .host → t.host = s.host ∧ t.freeCount = s.freeCount ∧
      t.circuit.signal = s.circuit.signal ∧ t.circuit.fbMode = s.circuit.fbMode ∧
      t.circuit.amps.length = s.circuit.amps.length) ∧
    (∀ (j : Nat) (a : Amplifier W), s.circuit.amps[j]? = some a →
      ∃ a' : Amplifier W, t.circuit.amps[j]? = some a' ∧
        { a' with engine := a.engine, inState := a.inState } = a ∧
        (id ≠ .ring j → a' = a)) ∧
    ∃ e', t.engine? id = some e' ∧ e'.fb = e.fb ∧ e'.mem.length = e.mem.length ∧
      (∀ d, e.destination 1 = .ok d → ∀ x, x ≠ d → e'.mem.read x = e.mem.read x) ∧
      (e'.status = .running ∧ e'.fault = e.fault ∨
        e'.status = .faulted ∧ e'.pc = e.pc ∧ KeepsStorage e e')

/-- Frame of OUT (43_io.md R106, 45_amplifier.md R116): OUT stores nothing; only the sink it is bound to receives the
word. -/
def Obligations.FrameOfOutput : Prop :=
  ∀ (W : Nat) (s t : Block W) (id : EngineId) (e : Engine W) (m : Mode),
    Executes s id e → exec (.out m) (.of s) = .next (.of t) →
    KeepsOtherEngines s t id ∧
    t.host.inputs = s.host.inputs ∧ t.activity = s.activity ∧ t.calls = s.calls ∧ t.reply = s.reply ∧
    t.freeCount = s.freeCount ∧
    (id = .host → t.circuit = s.circuit) ∧
    (id ≠ .host → t.host = s.host ∧
      t.circuit.signal = s.circuit.signal ∧ t.circuit.fbMode = s.circuit.fbMode ∧
      t.circuit.amps.length = s.circuit.amps.length) ∧
    (∀ (j : Nat) (a : Amplifier W), s.circuit.amps[j]? = some a →
      ∃ a' : Amplifier W, t.circuit.amps[j]? = some a' ∧
        { a' with engine := a.engine, lastOut := a.lastOut } = a ∧
        (id ≠ .ring j → a' = a)) ∧
    ∃ e', t.engine? id = some e' ∧ e'.mem = e.mem ∧ e'.fb = e.fb ∧
      (e'.status = .running ∧ e'.fault = e.fault ∨
        e'.status = .suspended ∧ e'.fault = e.fault ∧ e'.pc = e.pc ∨
        e'.status = .faulted ∧ e'.pc = e.pc)

/-- Frame of JT, JF and HLT (44_control.md): they store nothing and call nothing. -/
def Obligations.FrameOfControlTransfer : Prop :=
  ∀ (W : Nat) (s t : Block W) (id : EngineId) (e : Engine W) (i : Instr) (m1 m2 : Mode),
    i ∈ [Instr.jt m1 m2, .jf m1 m2, .hlt] → Executes s id e → exec i (.of s) = .next (.of t) →
    KeepsAllButEngines s t ∧ KeepsOtherEngines s t id ∧
    ∃ e', t.engine? id = some e' ∧ e'.mem = e.mem ∧ e'.fb = e.fb ∧
      (e'.status = .running ∧ e'.fault = e.fault ∨
        i = .hlt ∧ e'.status = .halted ∧ e'.fault = e.fault ∨
        e'.status = .faulted ∧ e'.pc = e.pc)

/-- 20_memory.md R57: a cycle of one engine writes to no other engine's storage, and to no other unit's state. -/
def Obligations.CycleLeavesOtherUnitsAlone : Prop :=
  ∀ (W : Nat) (s t : Block W) (e : Engine W), step (.of s) = .next (.of t) →
    (∀ i, Executes s (.ring i) e → t.host = s.host ∧ t.freeCount = s.freeCount ∧
      t.circuit.signal = s.circuit.signal ∧
      ∀ j, j ≠ i → t.circuit.amps[j]? = s.circuit.amps[j]?) ∧
    (Executes s .host e → t.circuit = s.circuit)

/-- 10_state.md R22, 20_memory.md R57, 40_engine_cycle.md R98: what a cycle does to an amplifier depends on that
amplifier alone. Two blocks that agree on the executing amplifier agree on it after the step, whatever the rest of them
holds. -/
def Obligations.CycleReadsItsOwnUnitOnly : Prop :=
  ∀ (W : Nat) (s s' t : Block W) (i : Nat) (e : Engine W),
    Executes s (.ring i) e → Executes s' (.ring i) e →
    s.circuit.amps[i]? = s'.circuit.amps[i]? → step (.of s) = .next (.of t) →
    ∃ t', step (.of s') = .next (.of t') ∧ t'.circuit.amps[i]? = t.circuit.amps[i]?

/-! ### The status machine -/

/-- 40_engine_cycle.md R96, 10_state.md R18, R21: an engine becomes Suspended only by its own OUT with `fb` set, and
`pc` and memory stay. -/
def Obligations.OnlyOutputSuspends : Prop :=
  ∀ (W : Nat) (s t : Block W) (id : EngineId) (e e' : Engine W), step (.of s) = .next (.of t) →
    s.engine? id = some e → t.engine? id = some e' →
    e.status ≠ .suspended → e'.status = .suspended →
    Executes s id e ∧ e.fb = true ∧ e'.pc = e.pc ∧ e'.mem = e.mem ∧
      ∃ w m, e.mem.read e.pc = some w ∧ decode w = .ok (.out m)

/-- 40_engine_cycle.md R96, 44_control.md R109: an engine becomes Halted only by its own HLT. -/
def Obligations.OnlyHaltHalts : Prop :=
  ∀ (W : Nat) (s t : Block W) (id : EngineId) (e e' : Engine W), step (.of s) = .next (.of t) →
    s.engine? id = some e → t.engine? id = some e' →
    e.status ≠ .halted → e'.status = .halted →
    Executes s id e ∧ e'.mem = e.mem ∧
      ∃ w, e.mem.read e.pc = some w ∧ decode w = .ok .hlt

/-- 10_state.md R20, 40_engine_cycle.md R90, R93, R94 (D8): a Faulted engine stays Faulted, with its record and its
`pc`, until that engine is constructed anew or reset. That a host operation which raises keeps the first record is
the model's reading (log 14). -/
def Obligations.FaultedLastsUntilReset : Prop :=
  ∀ (W : Nat) (s t : Block W) (id : EngineId) (e e' : Engine W), step (.of s) = .next (.of t) →
    s.engine? id = some e → t.engine? id = some e' → e.status = .faulted →
    e'.status = .faulted ∧ e'.fault = e.fault ∧ e'.pc = e.pc ∨
    s.activity = .idle ∧ ∃ c, s.calls.head? = some c ∧ c.rebuilds id = true

/-- 40_engine_cycle.md R90 (D8, D9): what a host's `run()` does in each status. -/
def Obligations.RunEntryPoint : Prop :=
  ∀ (W : Nat) (s : Block W) (id : EngineId) (e : Engine W) (cs : List (HostCall W)),
    s.activity = .idle → s.calls = .run id :: cs → s.engine? id = some e →
    let s' : Block W := { s with calls := cs, reply := none }
    (e.status = .running → step (.of s) = .next (.of { s' with activity := .engine id })) ∧
    (e.status = .halted → step (.of s) = .next (.of { s' with reply := some .done })) ∧
    (∀ r, e.status = .faulted → e.fault = some r → step (.of s) = .next (.of { s' with reply := some (.fault r) })) ∧
    (e.status = .suspended → step (.of s) = .next
      (.of { s'.setEngine id { e with status := .faulted, fault := some (.callerMisuse .runWhileSuspended) } with
        reply := some (.fault (.callerMisuse .runWhileSuspended)) }))

/-- 40_engine_cycle.md R92, R93 (D8, D9): what a host's `resume()` does in each status. -/
def Obligations.ResumeEntryPoint : Prop :=
  ∀ (W : Nat) (s : Block W) (id : EngineId) (e : Engine W) (cs : List (HostCall W)),
    s.activity = .idle → s.calls = .resume id :: cs → s.engine? id = some e →
    let s' : Block W := { s with calls := cs, reply := none }
    (e.status = .suspended → step (.of s) = .next
      (.of { s'.setEngine id { e with pc := e.pc + 2, status := .running } with activity := .engine id })) ∧
    (∀ r, e.status = .faulted → e.fault = some r → step (.of s) = .next (.of { s' with reply := some (.fault r) })) ∧
    (e.status = .running ∨ e.status = .halted → step (.of s) = .next
      (.of { s'.setEngine id { e with status := .faulted, fault := some (.callerMisuse .resumeNotSuspended) } with
        reply := some (.fault (.callerMisuse .resumeNotSuspended)) }))

/-- 40_engine_cycle.md R91, R92, 10_state.md R18: an OUT in feedback mode, the return of the call with `None`, and the
host's `resume()` leave the engine exactly where an OUT without feedback leaves it. -/
def Obligations.ResumedOutputContinuesAsIfUninterrupted : Prop :=
  ∀ (W : Nat) (s : Block W) (id : EngineId) (e : Engine W) (m : Mode) (v : Word W) (cs : List (HostCall W)),
    s.activity = .engine id → Executes s id e → e.SourceIs m 1 v → e.fb = true →
    ∃ t u x : Block W, exec (.out m) (.of s) = .next (.of t) ∧ step (.of t) = .next (.of u) ∧
      u.activity = .idle ∧ u.reply = some .done ∧
      step (.of { u with calls := .resume id :: cs }) = .next (.of x) ∧
      x.activity = .engine id ∧ x.engine? id = some { e with pc := e.pc + 2 }

/-- 40_engine_cycle.md R94, R95, 70_reset_and_hazards.md R176, 10_state.md R31 (D3, D8, D26): construction and
`reset(P)` of the host's engine, within the length bound; reset keeps `fb` and the capabilities. -/
def Obligations.EngineConstructionAndReset : Prop :=
  ∀ (W : Nat) (s : Block W) (P ins : List (Word W)) (cs : List (HostCall W)),
    s.activity = .idle → P.length ≤ Config.maxLength W →
    let fresh (fb : Bool) : Engine W := { mem := P, pc := 0, status := .running, fault := none, fb := fb }
    (s.calls = .constructEngine P ins :: cs → step (.of s) = .next (.of { s with
      host := { engine := fresh false, inputs := ins, outputs := [] }
      calls := cs, reply := some .done })) ∧
    (s.calls = .resetEngine P :: cs → step (.of s) = .next (.of { s with
      host := { s.host with engine := fresh s.host.engine.fb }
      calls := cs, reply := some .done }))

/-! ### Host inspection and seeding -/

/-- 20_memory.md R47, R48 (D22), 60_exceptions.md R156 (D31): the two inspection reads, and their faults, which leave an
engine that was not Faulted before Faulted. -/
def Obligations.InspectionReads : Prop :=
  ∀ (W : Nat) (s : Block W) (id : EngineId) (e : Engine W) (a n : Int) (cs : List (HostCall W)),
    s.activity = .idle → s.engine? id = some e →
    let s' : Block W := { s with calls := cs, reply := none }
    let failed (r : FaultRecord W) : Block W :=
      { s'.setEngine id { e with status := .faulted, fault := some r } with reply := some (.fault r) }
    (s.calls = .readAddress id a :: cs →
      (∀ v, e.mem.read a = some v → step (.of s) = .next (.of { s' with reply := some (.word v) })) ∧
      (e.mem.read a = none → e.status ≠ .faulted →
        step (.of s) = .next (.of (failed (.outOfRange a e.pc .host))))) ∧
    (s.calls = .readWords id a n :: cs →
      (0 ≤ n → 0 ≤ a → a + n ≤ e.mem.length → ∃ vs : List (Word W),
        step (.of s) = .next (.of { s' with reply := some (.words vs) }) ∧ (vs.length : Int) = n ∧
        ∀ k : Nat, (k : Int) < n → vs[k]? = e.mem.read (a + k)) ∧
      (n < 0 ∨ a < 0 ∨ (e.mem.length : Int) < a + n → e.status ≠ .faulted →
        step (.of s) = .next (.of (failed (.callerMisuse .inspectionRange)))))

/-- 20_memory.md R49 (D22), 70_reset_and_hazards.md R185: `poke` writes one word in any status and changes nothing else
of the engine; outside the storage it faults (60_exceptions.md R156). -/
def Obligations.PokeSeedsOneWord : Prop :=
  ∀ (W : Nat) (s : Block W) (id : EngineId) (e : Engine W) (a : Int) (v : Word W) (cs : List (HostCall W)),
    s.activity = .idle → s.calls = .poke id a v :: cs → s.engine? id = some e →
    let s' : Block W := { s with calls := cs, reply := none }
    (0 ≤ a → a < e.mem.length → step (.of s) = .next
      (.of { s'.setEngine id { e with mem := e.mem.write a v } with reply := some .done })) ∧
    (a < 0 ∨ (e.mem.length : Int) ≤ a → e.status ≠ .faulted → step (.of s) = .next
      (.of { s'.setEngine id { e with status := .faulted, fault := some (.outOfRange a e.pc .host) } with
        reply := some (.fault (.outOfRange a e.pc .host)) }))

/-! ### The Amplifier -/

/-- 45_amplifier.md R117: `run(x)` records `x` as pending and resumes a Suspended engine; on any other it is `run()`. -/
def Obligations.AmplifierRunRecordsThePendingInput : Prop :=
  ∀ (W : Nat) (s : Block W) (i : Nat) (a : Amplifier W) (x : Word W) (cs : List (HostCall W)),
    s.activity = .idle → s.calls = .amplifierRun i x :: cs → s.circuit.amps[i]? = some a →
    let a' : Amplifier W :=
      { a with pending := some x
               engine := if a.engine.status = .suspended
                         then { a.engine with pc := a.engine.pc + 2, status := .running }
                         else a.engine }
    step (.of s) = .next (.of { s.putAmp i a' with calls := cs, reply := none, activity := .amplifier i })

/-- 45_amplifier.md R117 to R120, R125 (NoOutput is D12): when the engine's loop has ended, a Halted engine makes the
amplifier Finished, and the call returns the engine's fault, NoOutput, or the last emitted word. -/
def Obligations.AmplifierRunReturns : Prop :=
  ∀ (W : Nat) (s : Block W) (i : Nat) (a : Amplifier W),
    s.activity = .amplifier i → s.circuit.amps[i]? = some a → a.engine.status ≠ .running →
    let a' : Amplifier W := { a with inState := if a.engine.status = .halted then .finished else a.inState }
    let back (r : Reply W) : Block W := { s.putAmp i a' with activity := .idle, reply := some r }
    (∀ r, a.engine.status = .faulted → a.engine.fault = some r → step (.of s) = .next (.of (back (.fault r)))) ∧
    (a.engine.status ≠ .faulted → a.lastOut = none → step (.of s) = .next (.of (back (.fault (.noOutput i))))) ∧
    (∀ v, a.engine.status ≠ .faulted → a.lastOut = some v → step (.of s) = .next (.of (back (.word v))))

/-- 45_amplifier.md R121 (D12, D30), R122, 10_state.md R32: `reset()` restarts the engine from the original image;
`phase` and `fb` stay. -/
def Obligations.AmplifierResetRestoresTheImage : Prop :=
  ∀ (W : Nat) (s : Block W) (i : Nat) (a : Amplifier W) (cs : List (HostCall W)),
    s.activity = .idle → s.calls = .amplifierReset i :: cs → s.circuit.amps[i]? = some a →
    let a' : Amplifier W :=
      { engine := { mem := a.image, pc := 0, status := .running, fault := none, fb := a.engine.fb }
        image := a.image, phase := a.phase, pending := none
        inState := .awaitingPhase, lastOut := none }
    step (.of s) = .next (.of { s.putAmp i a' with calls := cs, reply := some .done })

/-- 10_state.md R34 (derived, D30), 45_amplifier.md R115: inside an amplifier's `run(x)` or a circuit run, under the
block's invariant, an IN whose destination resolves gets a word; the two CallerMisuse arms are not reached. -/
def Obligations.InputInsideARunIsNeverMisused : Prop :=
  ∀ (W : Nat) (s : Block W) (i : Nat) (e : Engine W) (d : Int), s.Inv →
    s.activity = .amplifier i ∨ s.activity = .circuit i →
    Executes s (.ring i) e → e.DestinationIs 1 d →
    ∃ t v, exec .inp (.of s) = .next (.of t) ∧
      t.engine? (.ring i) = some { e with mem := e.mem.write d v, pc := e.pc + 2 }

/-! ### The Feedback Circuit -/

/-- 46_feedback_circuit.md R131 (D15), 45_amplifier.md R112, 10_state.md R33: construction builds one fresh amplifier per
phase, in order, over copies of the image; with no phase it raises CallerMisuse and (log 13) constructs nothing. -/
def Obligations.CircuitConstruction : Prop :=
  ∀ (W : Nat) (s : Block W) (P phases : List (Word W)) (cs : List (HostCall W)),
    s.activity = .idle → s.calls = .constructCircuit P phases :: cs →
    (phases = [] → step (.of s) = .next (.of { s with
      calls := cs, reply := some (.fault (.callerMisuse .emptyRing)) })) ∧
    (phases ≠ [] → P.length ≤ Config.maxLength W → ∃ t, step (.of s) = .next (.of t) ∧
      t.activity = .idle ∧ t.calls = cs ∧ t.reply = some .done ∧ t.host = s.host ∧
      t.circuit.amps.length = phases.length ∧
      ∀ (i : Nat) (ph : Word W), phases[i]? = some ph → t.circuit.amps[i]? = some
        { engine := { mem := P, pc := 0, status := .running, fault := none, fb := false }
          image := P, phase := ph, pending := none, inState := .awaitingPhase, lastOut := none })

/-- 46_feedback_circuit.md R132 (D13, D26), R133, R134: a run of the circuit, in either mode, resets every amplifier,
sets every engine's `fb`, takes the seed as the signal and calls amplifier 0 with it. -/
def Obligations.CircuitRunStarts : Prop :=
  ∀ (W : Nat) (s : Block W) (seed : Word W) (fbMode : Bool) (cs : List (HostCall W)),
    s.activity = .idle → s.calls = .circuitRun seed fbMode :: cs → s.circuit.amps ≠ [] →
    ∃ t, step (.of s) = .next (.of t) ∧ t.activity = .circuit 0 ∧ t.calls = cs ∧ t.reply = none ∧
      t.host = s.host ∧ t.freeCount = s.freeCount ∧
      t.circuit.signal = seed ∧ t.circuit.fbMode = fbMode ∧
      t.circuit.amps.length = s.circuit.amps.length ∧
      ∀ (i : Nat) (a : Amplifier W), s.circuit.amps[i]? = some a → t.circuit.amps[i]? = some
        { engine := { mem := a.image, pc := 0, status := .running, fault := none, fb := fbMode }
          image := a.image, phase := a.phase, pending := if i = 0 then some seed else none
          inState := .awaitingPhase, lastOut := none }

/-- 46_feedback_circuit.md R133, R134, R138, R139 (45_amplifier.md R118): within a pass, the word amplifier `i` returns
becomes the signal and the input of amplifier `i + 1`, which runs next; no other amplifier changes. -/
def Obligations.CircuitCarriesTheSignalForward : Prop :=
  ∀ (W : Nat) (s : Block W) (i : Nat) (a b : Amplifier W) (v : Word W),
    s.activity = .circuit i → s.circuit.amps[i]? = some a → s.circuit.amps[i + 1]? = some b →
    a.engine.status = .suspended ∨ a.engine.status = .halted → a.lastOut = some v →
    ∃ t, step (.of s) = .next (.of t) ∧ t.activity = .circuit (i + 1) ∧ t.circuit.signal = v ∧
      t.circuit.fbMode = s.circuit.fbMode ∧ t.host = s.host ∧ t.calls = s.calls ∧ t.reply = s.reply ∧
      t.circuit.amps[i]? = some
        { a with inState := if a.engine.status = .halted then .finished else a.inState } ∧
      t.circuit.amps[i + 1]? = some
        { b with pending := some v
                 engine := if b.engine.status = .suspended
                           then { b.engine with pc := b.engine.pc + 2, status := .running }
                           else b.engine } ∧
      ∀ j, j ≠ i → j ≠ i + 1 → t.circuit.amps[j]? = s.circuit.amps[j]?

/-- 46_feedback_circuit.md R133 to R136 (D14), R141: at the end of a pass, non-feedback mode returns the last
amplifier's word; feedback mode returns it if every engine is Halted, returns RingDesync with the halted positions if
only some are, and otherwise starts another pass at amplifier 0. -/
def Obligations.CircuitPassEnds : Prop :=
  ∀ (W : Nat) (s : Block W) (i : Nat) (a : Amplifier W) (v : Word W),
    s.activity = .circuit i → s.circuit.amps[i]? = some a → i + 1 = s.circuit.amps.length →
    a.engine.status = .suspended ∨ a.engine.status = .halted → a.lastOut = some v →
    let amps := s.circuit.amps.set i
      { a with inState := if a.engine.status = .halted then .finished else a.inState }
    let back (r : Reply W) : Block W := { s with
      activity := .idle, reply := some r
      circuit := { s.circuit with amps := amps, signal := v } }
    (s.circuit.fbMode = false → step (.of s) = .next (.of (back (.word v)))) ∧
    (s.circuit.fbMode = true → (∀ b ∈ s.circuit.amps, b.engine.status = .halted) →
      step (.of s) = .next (.of (back (.word v)))) ∧
    (s.circuit.fbMode = true → (∀ b ∈ s.circuit.amps, b.engine.status ≠ .halted) →
      ∃ b, amps[0]? = some b ∧ step (.of s) = .next (.of { s with
        activity := .circuit 0
        circuit := { s.circuit with
          signal := v
          amps := amps.set 0
            { b with pending := some v
                     engine := if b.engine.status = .suspended
                               then { b.engine with pc := b.engine.pc + 2, status := .running }
                               else b.engine } } })) ∧
    (s.circuit.fbMode = true → (∃ b ∈ s.circuit.amps, b.engine.status = .halted) →
      (∃ b ∈ s.circuit.amps, b.engine.status ≠ .halted) →
      ∃ H : List Nat, step (.of s) = .next (.of (back (.fault (.ringDesync H)))) ∧ H.Pairwise (· < ·) ∧
        ∀ j, j ∈ H ↔ ∃ b, s.circuit.amps[j]? = some b ∧ b.engine.status = .halted)

/-- 46_feedback_circuit.md R137: when the run of amplifier `i` returns a fault, of its engine or its own (`result`),
the circuit's run ends at once and returns it unchanged; no other amplifier is run, and the amplifiers keep their state. -/
def Obligations.AmplifierFaultEndsTheCircuitRun : Prop :=
  ∀ (W : Nat) (s : Block W) (i : Nat) (a : Amplifier W) (r : FaultRecord W),
    s.activity = .circuit i → s.circuit.amps[i]? = some a →
    a.engine.status ≠ .running → a.result i = .error r →
    let a' : Amplifier W := { a with inState := if a.engine.status = .halted then .finished else a.inState }
    step (.of s) = .next (.of { s.putAmp i a' with activity := .idle, reply := some (.fault r) })

/-! ### The invariant -/

/-- The block's invariant (Safety.lean: 00_scope.md R7, 10_state.md R18, R20, R34, 44_control.md R109, 45_amplifier.md
R118, 46_feedback_circuit.md R132, 60_exceptions.md R155) holds right after reset, at every width. The reset values the
spec does not give are the model's (log 11, log 12, log 13). -/
def Obligations.InvariantHoldsAtReset : Prop :=
  State.reset.Inv ∧ ∀ W : Nat, (State.resetOf W).Inv

/-- Every step keeps the block's invariant, from every state that meets it. -/
def Obligations.StepKeepsTheInvariant : Prop :=
  ∀ s t : State, s.Inv → step s = .next t → t.Inv

/-- From a state that meets the invariant a step never faults, and it refuses only a host call the spec does not give
(log 17): every cycle and every return of a call runs (40_engine_cycle.md R83, R88). -/
def Obligations.StepStopsOnlyOnImpossibleHostCalls : Prop :=
  ∀ s : State, s.Inv →
    (∃ t, step s = .next t) ∨
    (s.block.activity = .idle ∧ ∃ c cs, s.block.calls = c :: cs ∧ c.Impossible s.block ∧
      (step s = .refused .noSuchUnit ∨ step s = .refused .imageTooLong))
end

