-- ==== Sys2Proof/Laws/State.lean ====
section
/-! SUPPORT. What each update of the state changes, one lemma per field, so that no proof unfolds a record update. -/

namespace Sys2Proof.Machine

variable {W : Nat}

/-! ### The machine after reset -/

@[simp] theorem State.resetOf_width : (State.resetOf W).width = W := rfl
@[simp] theorem State.resetOf_block : (State.resetOf W).block = Block.reset := rfl
@[simp] theorem State.reset_eq : State.reset = State.resetOf Config.defaultWidth := rfl

/-! ### Engine updates -/

section Engine
variable (e : Engine W) (n : Nat) (t a : Int) (v : Word W)

@[simp] theorem Engine.advance_mem : (e.advance n).mem = e.mem := rfl
@[simp] theorem Engine.advance_pc : (e.advance n).pc = e.pc + n := rfl
@[simp] theorem Engine.advance_status : (e.advance n).status = e.status := rfl
@[simp] theorem Engine.advance_fault : (e.advance n).fault = e.fault := rfl
@[simp] theorem Engine.advance_fb : (e.advance n).fb = e.fb := rfl

@[simp] theorem Engine.jump_mem : (e.jump t).mem = e.mem := rfl
@[simp] theorem Engine.jump_pc : (e.jump t).pc = t := rfl
@[simp] theorem Engine.jump_status : (e.jump t).status = e.status := rfl
@[simp] theorem Engine.jump_fault : (e.jump t).fault = e.fault := rfl
@[simp] theorem Engine.jump_fb : (e.jump t).fb = e.fb := rfl

@[simp] theorem Engine.store_mem : (e.store a v).mem = e.mem.write a v := rfl
@[simp] theorem Engine.store_pc : (e.store a v).pc = e.pc := rfl
@[simp] theorem Engine.store_status : (e.store a v).status = e.status := rfl
@[simp] theorem Engine.store_fault : (e.store a v).fault = e.fault := rfl
@[simp] theorem Engine.store_fb : (e.store a v).fb = e.fb := rfl

@[simp] theorem Engine.halt_mem : e.halt.mem = e.mem := rfl
@[simp] theorem Engine.halt_pc : e.halt.pc = e.mem.length := rfl
@[simp] theorem Engine.halt_status : e.halt.status = .halted := rfl
@[simp] theorem Engine.halt_fault : e.halt.fault = e.fault := rfl
@[simp] theorem Engine.halt_fb : e.halt.fb = e.fb := rfl

@[simp] theorem Engine.suspend_mem : e.suspend.mem = e.mem := rfl
@[simp] theorem Engine.suspend_pc : e.suspend.pc = e.pc := rfl
@[simp] theorem Engine.suspend_status : e.suspend.status = .suspended := rfl
@[simp] theorem Engine.suspend_fault : e.suspend.fault = e.fault := rfl
@[simp] theorem Engine.suspend_fb : e.suspend.fb = e.fb := rfl

@[simp] theorem Engine.wake_mem : e.wake.mem = e.mem := rfl
@[simp] theorem Engine.wake_pc : e.wake.pc = e.pc + 2 := rfl
@[simp] theorem Engine.wake_status : e.wake.status = .running := rfl
@[simp] theorem Engine.wake_fault : e.wake.fault = e.fault := rfl
@[simp] theorem Engine.wake_fb : e.wake.fb = e.fb := rfl

variable (P : List (Word W)) (b : Bool)

@[simp] theorem Engine.fresh_mem : (Engine.fresh P b).mem = P := rfl
@[simp] theorem Engine.fresh_pc : (Engine.fresh P b).pc = 0 := rfl
@[simp] theorem Engine.fresh_status : (Engine.fresh P b).status = .running := rfl
@[simp] theorem Engine.fresh_fault : (Engine.fresh P b).fault = none := rfl
@[simp] theorem Engine.fresh_fb : (Engine.fresh P b).fb = b := rfl

@[simp] theorem Engine.resetTo_eq : e.resetTo P = Engine.fresh P e.fb := rfl

variable (r : FaultRecord W)

@[simp] theorem Engine.raise_mem : (e.raise r).mem = e.mem := by unfold Engine.raise; split <;> rfl
@[simp] theorem Engine.raise_pc : (e.raise r).pc = e.pc := by unfold Engine.raise; split <;> rfl
@[simp] theorem Engine.raise_fb : (e.raise r).fb = e.fb := by unfold Engine.raise; split <;> rfl
@[simp] theorem Engine.raise_status : (e.raise r).status = .faulted := by
  unfold Engine.raise; split <;> simp_all

theorem Engine.raise_of_not_faulted (h : e.status ≠ .faulted) :
    e.raise r = { e with status := .faulted, fault := some r } := by
  simp [Engine.raise, h]

theorem Engine.raise_of_faulted (h : e.status = .faulted) : e.raise r = e := by
  simp [Engine.raise, h]

end Engine

/-! ### Replacing an amplifier -/

section MapAmp
variable (s : Block W) (i : Nat) (f : Amplifier W → Amplifier W)

@[simp] theorem Block.mapAmp_host : (s.mapAmp i f).host = s.host := rfl
@[simp] theorem Block.mapAmp_signal : (s.mapAmp i f).circuit.signal = s.circuit.signal := rfl
@[simp] theorem Block.mapAmp_fbMode : (s.mapAmp i f).circuit.fbMode = s.circuit.fbMode := rfl
@[simp] theorem Block.mapAmp_amps : (s.mapAmp i f).circuit.amps = s.circuit.amps.modify i f := rfl
@[simp] theorem Block.mapAmp_activity : (s.mapAmp i f).activity = s.activity := rfl
@[simp] theorem Block.mapAmp_calls : (s.mapAmp i f).calls = s.calls := rfl
@[simp] theorem Block.mapAmp_reply : (s.mapAmp i f).reply = s.reply := rfl
@[simp] theorem Block.mapAmp_freeCount : (s.mapAmp i f).freeCount = s.freeCount := rfl

end MapAmp

/-! ### Replacing an engine -/

section SetEngine
variable (s : Block W) (id : EngineId) (e : Engine W)

@[simp] theorem Block.setEngine_inputs : (s.setEngine id e).host.inputs = s.host.inputs := by
  cases id <;> rfl
@[simp] theorem Block.setEngine_outputs : (s.setEngine id e).host.outputs = s.host.outputs := by
  cases id <;> rfl
@[simp] theorem Block.setEngine_signal : (s.setEngine id e).circuit.signal = s.circuit.signal := by
  cases id <;> rfl
@[simp] theorem Block.setEngine_fbMode : (s.setEngine id e).circuit.fbMode = s.circuit.fbMode := by
  cases id <;> rfl
@[simp] theorem Block.setEngine_activity : (s.setEngine id e).activity = s.activity := by
  cases id <;> rfl
@[simp] theorem Block.setEngine_calls : (s.setEngine id e).calls = s.calls := by cases id <;> rfl
@[simp] theorem Block.setEngine_reply : (s.setEngine id e).reply = s.reply := by cases id <;> rfl
@[simp] theorem Block.setEngine_freeCount : (s.setEngine id e).freeCount = s.freeCount := by
  cases id <;> rfl
@[simp] theorem Block.setEngine_host_engine : (s.setEngine .host e).host.engine = e := rfl
@[simp] theorem Block.setEngine_ring_host (i : Nat) : (s.setEngine (.ring i) e).host = s.host := rfl
@[simp] theorem Block.setEngine_host_circuit : (s.setEngine .host e).circuit = s.circuit := rfl
@[simp] theorem Block.setEngine_ring_amps (i : Nat) :
    (s.setEngine (.ring i) e).circuit.amps =
      s.circuit.amps.modify i fun a => { a with engine := e } := rfl
@[simp] theorem Block.raise_eq (r : FaultRecord W) : s.raise id e r = s.setEngine id (e.raise r) := rfl

end SetEngine

/-- The engine that was put in place is the one found there. -/
theorem Block.engine?_setEngine_self {s : Block W} {id : EngineId} {e e' : Engine W}
    (h : s.engine? id = some e) : (s.setEngine id e').engine? id = some e' := by
  cases id with
  | host => rfl
  | ring i =>
    simp only [Block.engine?, Block.setEngine_ring_amps, List.getElem?_modify] at h ⊢
    cases ha : s.circuit.amps[i]? with
    | none => simp [ha] at h
    | some a => simp

/-- Every other engine is the one found before. -/
theorem Block.engine?_setEngine_other {s : Block W} {id id' : EngineId} {e' : Engine W} (h : id' ≠ id) :
    (s.setEngine id e').engine? id' = s.engine? id' := by
  cases id with
  | host => cases id' with
    | host => exact absurd rfl h
    | ring j => rfl
  | ring i => cases id' with
    | host => rfl
    | ring j =>
      have hij : i ≠ j := fun hij => h (by rw [hij])
      simp [Block.engine?, hij]

/-! ### The end of a call -/

section Answer
variable (s : Block W) (r : Reply W)

@[simp] theorem Block.answer_host : (s.answer r).host = s.host := rfl
@[simp] theorem Block.answer_circuit : (s.answer r).circuit = s.circuit := rfl
@[simp] theorem Block.answer_activity : (s.answer r).activity = .idle := rfl
@[simp] theorem Block.answer_calls : (s.answer r).calls = s.calls := rfl
@[simp] theorem Block.answer_reply : (s.answer r).reply = some r := rfl
@[simp] theorem Block.answer_freeCount : (s.answer r).freeCount = s.freeCount := rfl
@[simp] theorem Block.answer_engine? (id : EngineId) : (s.answer r).engine? id = s.engine? id := by
  cases id <;> rfl

end Answer

/-! ### The capabilities -/

section Amplifier
variable (a : Amplifier W) (v : Word W)

@[simp] theorem Amplifier.consume_engine : (a.consume v).engine = a.engine := rfl
@[simp] theorem Amplifier.consume_image : (a.consume v).image = a.image := rfl
@[simp] theorem Amplifier.consume_phase : (a.consume v).phase = a.phase := rfl
@[simp] theorem Amplifier.consume_pending : (a.consume v).pending = a.pending := rfl
@[simp] theorem Amplifier.consume_inState : (a.consume v).inState = a.inState := rfl
@[simp] theorem Amplifier.consume_lastOut : (a.consume v).lastOut = some v := rfl

end Amplifier

section Consume
variable (s : Block W) (id : EngineId) (v : Word W)

@[simp] theorem Block.consume_engine? (id' : EngineId) : (s.consume id v).engine? id' = s.engine? id' := by
  cases id with
  | host => cases id' <;> rfl
  | ring i => cases id' with
    | host => rfl
    | ring j =>
      simp only [Block.consume, Block.engine?, Block.mapAmp_amps, List.getElem?_modify]
      split <;> cases s.circuit.amps[j]? <;> simp [*]

@[simp] theorem Block.consume_activity : (s.consume id v).activity = s.activity := by cases id <;> rfl
@[simp] theorem Block.consume_calls : (s.consume id v).calls = s.calls := by cases id <;> rfl
@[simp] theorem Block.consume_reply : (s.consume id v).reply = s.reply := by cases id <;> rfl
@[simp] theorem Block.consume_freeCount : (s.consume id v).freeCount = s.freeCount := by cases id <;> rfl

end Consume

end Sys2Proof.Machine
end

