-- ==== Sys2Proof/Laws/Calls.lean ====
section
/-! SUPPORT. The steps that execute no instruction: which of them a step is, what looking up and replacing a unit says,
and what a call's entry does to the engines. The provers cite these instead of unfolding `step`. -/

namespace Sys2Proof.Machine

variable {W : Nat}

/-! ### Replacing an amplifier -/

/-- Where the position holds `a`, modifying it is setting it to the image of `a`. -/
theorem modify_eq_set {α : Type} {l : List α} {i : Nat} {f : α → α} {a : α} (h : l[i]? = some a) :
    l.modify i f = l.set i (f a) := by
  apply List.ext_getElem?
  intro j
  by_cases hij : i = j
  · subst hij
    obtain ⟨hlt, rfl⟩ := List.getElem?_eq_some_iff.1 h
    simp [hlt]
  · simp [hij, List.getElem?_set_ne hij]

theorem Block.mapAmp_eq_putAmp {s : Block W} {i : Nat} {f : Amplifier W → Amplifier W} {a : Amplifier W}
    (h : s.circuit.amps[i]? = some a) : s.mapAmp i f = s.putAmp i (f a) := by
  simp [Block.mapAmp, Block.putAmp, modify_eq_set h]

theorem Block.setEngine_eq_putAmp {s : Block W} {i : Nat} {a : Amplifier W} {e : Engine W}
    (h : s.circuit.amps[i]? = some a) :
    s.setEngine (.ring i) e = s.putAmp i { a with engine := e } := Block.mapAmp_eq_putAmp h

theorem Block.putAmp_self {s : Block W} {i : Nat} {a b : Amplifier W} (h : s.circuit.amps[i]? = some a) :
    (s.putAmp i b).circuit.amps[i]? = some b := by
  obtain ⟨hlt, -⟩ := List.getElem?_eq_some_iff.1 h
  simp [Block.putAmp, hlt]

@[simp] theorem Block.putAmp_putAmp {s : Block W} {i : Nat} {a b : Amplifier W} :
    (s.putAmp i a).putAmp i b = s.putAmp i b := by simp [Block.putAmp]

/-! ### Looking up an engine -/

/-- The engines of a state depend on the host's engine and the ring alone. -/
theorem Block.engine?_congr {s t : Block W} (h1 : t.host.engine = s.host.engine)
    (h2 : t.circuit.amps = s.circuit.amps) (id : EngineId) : t.engine? id = s.engine? id := by
  cases id <;> simp [Block.engine?, h1, h2]

/-- After replacing an engine, every engine is the one from before or the new one. -/
theorem Block.engine?_setEngine_cases {s : Block W} {id id' : EngineId} {e e0 e' : Engine W}
    (h : s.engine? id' = some e) (h' : (s.setEngine id e0).engine? id' = some e') :
    e' = e ∨ (id' = id ∧ e' = e0) := by
  by_cases hi : id' = id
  · subst hi
    rw [Block.engine?_setEngine_self h] at h'
    cases h'; exact .inr ⟨rfl, rfl⟩
  · rw [Block.engine?_setEngine_other hi, h] at h'; cases h'; exact .inl rfl

/-- After changing an amplifier, every engine is the one from before or that amplifier's. -/
theorem Block.engine?_mapAmp_cases {s : Block W} {i : Nat} {f : Amplifier W → Amplifier W} {id : EngineId}
    {e e' : Engine W} (h : s.engine? id = some e) (h' : (s.mapAmp i f).engine? id = some e') :
    e' = e ∨ (id = .ring i ∧ ∃ a, s.circuit.amps[i]? = some a ∧ a.engine = e ∧ e' = (f a).engine) := by
  cases id with
  | host => exact .inl (by simpa [Block.engine?, h] using h'.symm.trans h)
  | ring j =>
    simp only [Block.engine?, Block.mapAmp_amps, List.getElem?_modify] at h h'
    cases ha : s.circuit.amps[j]? with
    | none => simp [ha] at h
    | some a =>
      simp only [ha, Option.map_some, Option.some.injEq] at h h'
      by_cases hij : i = j
      · subst hij; simp at h'; exact .inr ⟨rfl, a, ha, h, h'.symm⟩
      · simp [hij] at h'; exact .inl (by rw [← h, ← h'])

/-! ### Which step it is -/

theorem step_of_executes {s : Block W} {id : EngineId} {e : Engine W} (h : Executes s id e) :
    step (.of s) = match e.fetch with
      | .ok i => exec i (.of s)
      | .error r => .next (.of (s.raise id e r)) := by
  cases hf : e.fetch <;> simp [step, h.1, h.2.1, h.2.2, hf]

/-- Where no engine executes, a step is a host call or the return of the active call. -/
theorem step_of_not_executes {s : Block W} (hn : ¬ ∃ id e, Executes s id e) :
    step (.of s) = match s.activity.engineId with
      | none => s.hostStep
      | some id => match s.engine? id with
        | none => .fault .noRunningEngine
        | some _ => s.returnStep := by
  unfold step
  cases h : s.activity.engineId with
  | none => rfl
  | some id =>
    dsimp only
    cases he : s.engine? id with
    | none => rfl
    | some e => exact if_neg fun hr => hn ⟨id, e, h, he, hr⟩

theorem step_of_idle {s : Block W} {c : HostCall W} {cs : List (HostCall W)} (h : s.activity = .idle)
    (hc : s.calls = c :: cs) : step (.of s) = ({ s with calls := cs, reply := none } : Block W).serve c := by
  simp [step, h, Activity.engineId, Block.hostStep, hc]

theorem Block.withEngine_next {s t : Block W} {id : EngineId} {k : Engine W → Outcome}
    (h : s.withEngine id k = .next (.of t)) : ∃ e, s.engine? id = some e ∧ k e = .next (.of t) := by
  unfold Block.withEngine at h
  split at h
  · cases h
  · exact ⟨_, by assumption, h⟩

theorem Block.withAmp_next {s t : Block W} {i : Nat} {k : Amplifier W → Outcome}
    (h : s.withAmp i k = .next (.of t)) : ∃ a, s.circuit.amps[i]? = some a ∧ k a = .next (.of t) := by
  unfold Block.withAmp at h
  split at h
  · cases h
  · exact ⟨_, by assumption, h⟩

/-! ### Calling an amplifier -/

theorem Block.callAmp_amps (s : Block W) (i j : Nat) :
    (s.callAmp i).circuit.amps[j]? =
      if i = j then s.circuit.amps[j]?.map (·.begin s.circuit.signal) else s.circuit.amps[j]? := by
  simp only [Block.callAmp, Block.mapAmp, List.getElem?_modify]
  split <;> simp

/-- The entry of an amplifier's run leaves every engine but a Suspended one at that position, which it wakes. -/
theorem Block.engine?_callAmp_cases {s : Block W} {i : Nat} {id : EngineId} {e e' : Engine W}
    (h : s.engine? id = some e) (h' : (s.callAmp i).engine? id = some e') :
    e' = e ∨ (id = .ring i ∧ e.status = .suspended ∧ e' = e.wake) := by
  have h'' : (s.mapAmp i fun a => a.begin s.circuit.signal).engine? id = some e' := by
    cases id <;> exact h'
  obtain h1 | ⟨h1, a, -, h3, h4⟩ := Block.engine?_mapAmp_cases h h''
  · exact .inl h1
  · subst h3
    simp only [Amplifier.begin] at h4
    split at h4
    · exact .inr ⟨h1, by assumption, h4⟩
    · exact .inl h4

/-- `H` holds exactly the ring positions whose engines are Halted (46_feedback_circuit.md R134). -/
theorem Circuit.mem_haltedSet {c : Circuit W} {j : Nat} :
    j ∈ c.haltedSet ↔ ∃ b, c.amps[j]? = some b ∧ b.engine.status = .halted := by
  simp only [Circuit.haltedSet, List.mem_filter, List.mem_range]
  constructor
  · rintro ⟨-, h2⟩
    split at h2
    · exact ⟨_, by assumption, by simpa using h2⟩
    · cases h2
  · rintro ⟨b, h1, h2⟩
    exact ⟨(List.getElem?_eq_some_iff.1 h1).1, by simp [h1, h2]⟩

/-! ### The width of an answer -/

/-- A cycle answers in the width of its block, if what it runs does. -/
theorem Block.onRunning_width {s : Block W} {k : EngineId → Engine W → Outcome} {t : State}
    (h : s.onRunning k = .next t) (hk : ∀ id e t, k id e = .next t → t.width = W) : t.width = W := by
  unfold Block.onRunning at h
  split at h
  · cases h
  · split at h
    · cases h
    · split at h
      · exact hk _ _ _ h
      · cases h

theorem Block.execute_width {s : Block W} {f : Engine W → Except (FaultRecord W) (Engine W)} {t : State}
    (h : s.execute f = .next t) : t.width = W := by
  refine Block.onRunning_width h fun id e t h => ?_
  split at h <;> cases h <;> rfl

/-- The end of an engine loop answers in the width of its block. -/
theorem Block.returnStep_width {s : Block W} {t : State} (h : s.returnStep = .next t) : t.width = W := by
  simp only [Block.returnStep] at h
  repeat' (first | (cases h; done) | (cases h; rfl) | split at h)

/-- A host call answers in the width of its block. -/
theorem Block.serve_width {s : Block W} {c : HostCall W} {t : State} (h : s.serve c = .next t) :
    t.width = W := by
  cases c <;>
    simp only [Block.serve, Block.constructEngine, Block.constructCircuit, Block.setFeedback, Block.run,
      Block.resume, Block.resetEngine, Block.readAddress, Block.readWords, Block.poke, Block.engineStatus,
      Block.amplifierRun, Block.amplifierReset, Block.amplifierStatus, Block.circuitRun, Block.withEngine,
      Block.withAmp, Block.hostFault] at h <;>
    repeat' (first | (cases h; done) | (cases h; rfl) | split at h)

end Sys2Proof.Machine
end

