-- ==== Sys2Proof/Laws/Decode.lean ====
section
/-! SUPPORT. Small facts about the decimal digits of an opcode word, and about the words of any width. -/

namespace Sys2Proof

/-- A digit is below 10 (00_scope.md R9). -/
theorem digit_lt (k n : Nat) : digit k n < 10 := Nat.mod_lt _ (by decide)

/-- The mode of a digit is well-formed. -/
theorem modeOf_wf {d : Nat} (h : d < 10) : (modeOf d).wf = true := by
  match d, h with
  | 0, _ => rfl
  | 1, _ => rfl
  | d + 2, h =>
    simp only [modeOf, Mode.wf, decide_eq_true_eq]
    omega

/-- A well-formed mode's digit is below 10. -/
theorem Mode.digit_lt {m : Mode} (h : m.wf = true) : m.digit < 10 := by
  cases m with
  | position => decide
  | immediate => decide
  | invalid d =>
    simp only [Mode.wf, decide_eq_true_eq] at h
    simp only [Mode.digit]
    omega

/-- A well-formed mode is the mode of its digit. -/
theorem modeOf_digit {m : Mode} (h : m.wf = true) : modeOf m.digit = m := by
  cases m with
  | position => rfl
  | immediate => rfl
  | invalid d =>
    simp only [Mode.wf, decide_eq_true_eq] at h
    match d, h with
    | d + 2, _ => rfl

/-! ### Words of any width -/

section Width
variable {W : Nat}

/-- A non-negative word's value is its bits read unsigned. -/
theorem toNat_of_nonneg {w : Word W} (h : 0 ≤ w.toInt) : (w.toNat : Int) = w.toInt := by
  have := w.isLt
  rw [BitVec.toInt_eq_toNat_cond] at h ⊢
  split at h
  · rw [if_pos ‹_›]
  · omega

/-- A number in the upper half of a width's range stays below the width's modulus when doubled. -/
theorem two_mul_lt_of_fits {n : Nat} (h : n < 2 ^ (W - 1)) : 2 * n < 2 ^ W := by
  cases W with
  | zero => simp at h ⊢; omega
  | succ W => rw [Nat.pow_succ]; simp at h; omega

/-- A number that fits is a non-negative word with that value. -/
theorem toNat_ofNat_of_fits {n : Nat} (h : n < 2 ^ (W - 1)) : (BitVec.ofNat W n).toNat = n := by
  have := two_mul_lt_of_fits h
  rw [BitVec.toNat_ofNat, Nat.mod_eq_of_lt (by omega)]

theorem toInt_ofNat_of_fits {n : Nat} (h : n < 2 ^ (W - 1)) : (BitVec.ofNat W n).toInt = n := by
  have := two_mul_lt_of_fits h
  rw [BitVec.toInt_eq_toNat_cond, toNat_ofNat_of_fits h, if_pos this]

theorem wrap_natCast (n : Nat) : (wrap n : Word W) = BitVec.ofNat W n := by simp

/-- What the decoder reads from a number that fits its width. -/
theorem decode_ofNat {n : Nat} (h : n < 2 ^ (W - 1)) :
    decode (BitVec.ofNat W n) = match decodeDigits n with
      | some i => .ok i
      | none => .error (.unknown (n % 100 : Nat)) := by
  have hn : ¬ (BitVec.ofNat W n).toInt < 0 := by rw [toInt_ofNat_of_fits h]; omega
  cases hd : decodeDigits n <;> simp only [decode, if_neg hn, toNat_ofNat_of_fits h, hd]

end Width

end Sys2Proof
end

