-- ==== Sys2Proof/Laws/Memory.lean ====
section
/-! SUPPORT. The laws of storage: read after write, and every operation keeps the length bound. -/

namespace Sys2Proof.Machine

variable {W : Nat}

@[simp] theorem Memory.length_write (m : Memory W) (a : Int) (v : Word W) :
    (m.write a v).length = m.length := by
  unfold Memory.write; split <;> simp

theorem Memory.read_eq_none {m : Memory W} {a : Int} : m.read a = none ↔ ¬ m.inRange a := by
  unfold Memory.read
  by_cases h : m.inRange a
  · have hlt : a.toNat < m.length := by obtain ⟨h0, h1⟩ := h; omega
    rw [if_pos h, List.getElem?_eq_getElem hlt]
    exact iff_of_false nofun (not_not_intro h)
  · rw [if_neg h]
    exact iff_of_true rfl h

theorem Memory.inRange_of_read {m : Memory W} {a : Int} {v : Word W} (h : m.read a = some v) :
    m.inRange a := by
  by_contra hn
  simp [Memory.read_eq_none.2 hn] at h

theorem Memory.read_of_inRange {m : Memory W} {a : Int} (h : m.inRange a) : ∃ v, m.read a = some v := by
  cases hr : m.read a with
  | none => exact absurd h (Memory.read_eq_none.1 hr)
  | some v => exact ⟨v, rfl⟩

theorem Memory.inRange_write {m : Memory W} {a b : Int} {v : Word W} :
    (m.write a v).inRange b ↔ m.inRange b := by
  simp [Memory.inRange]

theorem Memory.read_write_self {m : Memory W} {a : Int} {v : Word W} (h : m.inRange a) :
    (m.write a v).read a = some v := by
  have hlt : a.toNat < m.length := by obtain ⟨h0, h1⟩ := h; omega
  rw [Memory.read, if_pos (Memory.inRange_write.2 h), Memory.write, if_pos h,
    List.getElem?_set_self hlt]

theorem Memory.read_write_other {m : Memory W} {a b : Int} {v : Word W} (hab : b ≠ a) :
    (m.write a v).read b = m.read b := by
  unfold Memory.write
  split
  · rename_i h
    simp only [Memory.read, Memory.inRange, List.length_set]
    split
    · have : a.toNat ≠ b.toNat := by simp only [Memory.inRange] at h; omega
      rw [List.getElem?_set_ne this]
    · rfl
  · rfl

/-! ### Every operation keeps the length bound -/

theorem Memory.wf_write (m : Memory W) (a : Int) (v : Word W) : (m.write a v).wf = m.wf := by
  simp [Memory.wf]

theorem Engine.memWrite_wf {e e' : Engine W} {a : Int} {v : Word W} {access : Access}
    (h : e.memWrite a v access = .ok e') : e'.mem.wf = e.mem.wf := by
  unfold Engine.memWrite at h
  split at h
  · cases h; simp [Engine.store, Memory.wf_write]
  · cases h

/-- The storage of the state after reset meets the bound. -/
theorem reset_storage_wf : Memory.wf (Block.reset (W := W)).host.engine.mem = true := by
  simp [Block.reset, Memory.wf]

end Sys2Proof.Machine
end

