-- ==== Sys2Proof/Laws/Operands.lean ====
section
/-! SUPPORT. What the shared operations of an instruction can answer, said once each: operand resolution in terms of
storage, and the two answers an instruction without a capability has. -/

namespace Sys2Proof.Machine

variable {W : Nat}

theorem Engine.memRead_ok {e : Engine W} {a : Int} {x : Access} {v : Word W}
    (h : e.memRead a x = .ok v) : e.mem.read a = some v := by
  unfold Engine.memRead at h
  split at h <;> simp_all

theorem Engine.memRead_error {e : Engine W} {a : Int} {x : Access} {r : FaultRecord W}
    (h : e.memRead a x = .error r) : e.mem.read a = none ∧ r = .outOfRange a e.pc x := by
  unfold Engine.memRead at h
  split at h
  · cases h
  · rename_i hn; cases h; exact ⟨hn, rfl⟩

theorem Engine.memWrite_ok {e e' : Engine W} {a : Int} {v : Word W} {x : Access}
    (h : e.memWrite a v x = .ok e') : e.mem.inRange a ∧ e' = e.store a v := by
  unfold Engine.memWrite at h
  split at h
  · rename_i hr; cases h; exact ⟨hr, rfl⟩
  · cases h

theorem Engine.memWrite_error {e : Engine W} {a : Int} {v : Word W} {x : Access} {r : FaultRecord W}
    (h : e.memWrite a v x = .error r) : ¬ e.mem.inRange a ∧ r = .outOfRange a e.pc x := by
  unfold Engine.memWrite at h
  split at h
  · cases h
  · rename_i hr; cases h; exact ⟨hr, rfl⟩

/-- A resolved source parameter is what storage says. -/
theorem Engine.operand_ok {e : Engine W} {m : Mode} {k : Nat} {v : Word W}
    (h : e.operand m k = .ok v) : e.SourceIs m k v := by
  unfold Engine.operand at h
  split at h
  · cases h
  · rename_i pw hpw
    refine ⟨pw, Engine.memRead_ok hpw, ?_⟩
    cases m with
    | position => exact Engine.memRead_ok h
    | immediate => cases h; rfl
    | invalid d => cases h

/-- A source parameter's fault is the first check that fails. -/
theorem Engine.operand_error {e : Engine W} {m : Mode} {k : Nat} {r : FaultRecord W}
    (h : e.operand m k = .error r) : e.SourceFails m k r := by
  unfold Engine.operand at h
  split at h
  · rename_i hpw; cases h; exact .inl (Engine.memRead_error hpw)
  · rename_i pw hpw
    refine .inr ⟨pw, Engine.memRead_ok hpw, ?_⟩
    cases m with
    | position => exact Engine.memRead_error h
    | immediate => cases h
    | invalid d => cases h; rfl

theorem Engine.destination_ok {e : Engine W} {k : Nat} {d : Int}
    (h : e.destination k = .ok d) : e.DestinationIs k d := by
  unfold Engine.destination at h
  split at h
  · cases h
  · rename_i pw hpw
    split at h
    · rename_i hr; cases h; exact ⟨⟨pw, Engine.memRead_ok hpw, rfl⟩, hr⟩
    · cases h

theorem Engine.destination_error {e : Engine W} {k : Nat} {r : FaultRecord W}
    (h : e.destination k = .error r) : e.DestinationFails k r := by
  unfold Engine.destination at h
  split at h
  · rename_i hpw; cases h; exact .inl (Engine.memRead_error hpw)
  · rename_i pw hpw
    split at h
    · cases h
    · rename_i hr; cases h; exact .inr ⟨pw, Engine.memRead_ok hpw, hr, rfl⟩

/-- Everything format F3 can do to the executing engine. -/
theorem Engine.binary_cases (f : Word W → Word W → Word W) (m1 m2 : Mode) (e : Engine W) :
    (∃ a b d, e.operand m1 1 = .ok a ∧ e.operand m2 2 = .ok b ∧ e.destination 3 = .ok d ∧
      e.binary f m1 m2 = .ok ((e.store d (f a b)).advance 4)) ∨
    (∃ r, e.ThreeFail m1 m2 r ∧ e.binary f m1 m2 = .error r) := by
  unfold Engine.binary Engine.params3
  cases h1 : e.operand m1 1 with
  | error r => exact .inr ⟨r, .inl (Engine.operand_error h1), rfl⟩
  | ok a =>
    cases h2 : e.operand m2 2 with
    | error r => exact .inr ⟨r, .inr (.inl ⟨a, Engine.operand_ok h1, Engine.operand_error h2⟩), rfl⟩
    | ok b =>
      cases h3 : e.destination 3 with
      | error r =>
        exact .inr ⟨r, .inr (.inr ⟨a, b, Engine.operand_ok h1, Engine.operand_ok h2,
          Engine.destination_error h3⟩), rfl⟩
      | ok d => exact .inl ⟨a, b, d, rfl, rfl, rfl, rfl⟩

/-- Everything format F2S can do to the executing engine. -/
theorem Engine.branch_cases (taken : Word W → Bool) (m1 m2 : Mode) (e : Engine W) :
    (∃ c t, e.operand m1 1 = .ok c ∧ e.operand m2 2 = .ok t ∧
      e.branch taken m1 m2 = .ok (if taken c then e.jump t.toInt else e.advance 3)) ∨
    (∃ r, e.TwoFail m1 m2 r ∧ e.branch taken m1 m2 = .error r) := by
  unfold Engine.branch Engine.params2
  cases h1 : e.operand m1 1 with
  | error r => exact .inr ⟨r, .inl (Engine.operand_error h1), rfl⟩
  | ok c =>
    cases h2 : e.operand m2 2 with
    | error r => exact .inr ⟨r, .inr ⟨c, Engine.operand_ok h1, Engine.operand_error h2⟩, rfl⟩
    | ok t => exact .inl ⟨c, t, rfl, rfl, rfl⟩

/-- Where an engine executes, `onRunning` hands it to the meaning. -/
theorem Block.onRunning_of_executes {s : Block W} {id : EngineId} {e : Engine W}
    (h : Executes s id e) (k : EngineId → Engine W → Outcome) : s.onRunning k = k id e := by
  obtain ⟨h1, h2, h3⟩ := h
  simp [Block.onRunning, h1, h2, h3]

/-- What a meaning that answers a next state was applied to. -/
theorem Block.onRunning_next {s t : Block W} {k : EngineId → Engine W → Outcome}
    (h : s.onRunning k = .next (.of t)) : ∃ id e, Executes s id e ∧ k id e = .next (.of t) := by
  unfold Block.onRunning at h
  split at h
  · cases h
  · rename_i id hid
    split at h
    · cases h
    · rename_i e he
      split at h
      · rename_i hr; exact ⟨id, e, ⟨hid, he, hr⟩, h⟩
      · cases h

/-- The two answers of an instruction that calls no capability. -/
theorem Block.execute_of_executes {s : Block W} {id : EngineId} {e : Engine W}
    (h : Executes s id e) (f : Engine W → Except (FaultRecord W) (Engine W)) :
    s.execute f = .next (.of (s.setEngine id (match f e with
      | .ok e' => e'
      | .error r => e.raise r))) := by
  rw [Block.execute, Block.onRunning_of_executes h]
  cases f e <;> rfl

end Sys2Proof.Machine
end

