-- ==== Sys2Proof/Laws/Cycle.lean ====
section
/-! SUPPORT. Everything a cycle can do, said once: the cases of an instruction that answers a next state, and of the
capabilities it calls. -/

namespace Sys2Proof.Machine

variable {W : Nat}

/-- A decoded instruction is well-formed. -/
theorem wf_of_decode {w : Word W} {i : Instr} (h : decode w = .ok i) : i.wf = true := by
  unfold decode at h
  split at h
  · cases h
  · split at h
    · rename_i hd
      cases h
      unfold decodeDigits at hd
      split at hd <;> cases hd <;> simp [Instr.wf, modeOf_wf (digit_lt _ _)]
    · cases h

/-- The fault of a source parameter is true of the engine. -/
theorem Engine.SourceFails.describes {e : Engine W} {m : Mode} {k : Nat} {r : FaultRecord W}
    (h : e.SourceFails m k r) (hm : m.wf = true) (h1 : 1 ≤ k) (h2 : k ≤ 2) : r.Describes e := by
  obtain ⟨hn, rfl⟩ | ⟨pw, -, hp⟩ := h
  · exact ⟨rfl, Memory.read_eq_none.1 hn⟩
  · cases m with
    | position => obtain ⟨hn, rfl⟩ := hp; exact ⟨rfl, Memory.read_eq_none.1 hn⟩
    | immediate => exact hp.elim
    | invalid d =>
      subst hp
      simp only [Mode.wf, decide_eq_true_eq] at hm
      exact ⟨rfl, hm.1, hm.2, h1, h2⟩

/-- The fault of a destination parameter is true of the engine. -/
theorem Engine.DestinationFails.describes {e : Engine W} {k : Nat} {r : FaultRecord W}
    (h : e.DestinationFails k r) : r.Describes e := by
  obtain ⟨hn, rfl⟩ | ⟨pw, -, hp, rfl⟩ := h
  · exact ⟨rfl, Memory.read_eq_none.1 hn⟩
  · exact ⟨rfl, hp⟩

theorem Engine.ThreeFail.describes {e : Engine W} {m1 m2 : Mode} {r : FaultRecord W}
    (h : e.ThreeFail m1 m2 r) (hm : (m1.wf && m2.wf) = true) : r.Describes e := by
  simp only [Bool.and_eq_true] at hm
  obtain h | ⟨a, -, h⟩ | ⟨a, b, -, -, h⟩ := h
  · exact h.describes hm.1 (by decide) (by decide)
  · exact h.describes hm.2 (by decide) (by decide)
  · exact h.describes

theorem Engine.TwoFail.describes {e : Engine W} {m1 m2 : Mode} {r : FaultRecord W}
    (h : e.TwoFail m1 m2 r) (hm : (m1.wf && m2.wf) = true) : r.Describes e := by
  simp only [Bool.and_eq_true] at hm
  obtain h | ⟨a, -, h⟩ := h
  · exact h.describes hm.1 (by decide) (by decide)
  · exact h.describes hm.2 (by decide) (by decide)

/-- Everything `supply()` can do to the block: the host's source gives a word, or an amplifier's gives one and at most
moves on its `inState`, or its two fault arms. -/
theorem Block.supply_cases (s : Block W) (id : EngineId) :
    (id = .host ∧ ∃ v vs, s.host.inputs = v :: vs ∧
      s.supply id = .ok (v, { s with host := { s.host with inputs := vs } })) ∨
    (id = .host ∧ s.host.inputs = [] ∧
      s.supply id = .ok (Config.freeWord W s.freeCount, { s with freeCount := s.freeCount + 1 })) ∨
    (∃ i a v a', id = .ring i ∧ s.circuit.amps[i]? = some a ∧ a.supply = .ok (v, a') ∧
      s.supply id = .ok (v, s.mapAmp i fun _ => a')) ∨
    (∃ i m, id = .ring i ∧ m ≠ .emptyRing ∧ s.supply id = .error (.callerMisuse m)) := by
  cases id with
  | host =>
    cases hi : s.host.inputs with
    | nil => exact .inr (.inl ⟨rfl, rfl, by simp [Block.supply, Block.hostSupply, hi]⟩)
    | cons v vs => exact .inl ⟨rfl, v, vs, rfl, by simp [Block.supply, Block.hostSupply, hi]⟩
  | ring i =>
    cases ha : s.circuit.amps[i]? with
    | none => exact .inr (.inr (.inr ⟨i, .noPendingInput, rfl, by decide, by simp [Block.supply, ha]⟩))
    | some a =>
      cases hs : a.supply with
      | ok p => exact .inr (.inr (.inl ⟨i, a, p.1, p.2, rfl, ha, hs, by simp [Block.supply, ha, hs]⟩))
      | error r =>
        have : ∃ m, m ≠ .emptyRing ∧ r = .callerMisuse m := by
          unfold Amplifier.supply at hs
          split at hs
          · cases hs
          · split at hs
            · cases hs; exact ⟨_, by decide, rfl⟩
            · cases hs
          · cases hs; exact ⟨_, by decide, rfl⟩
        obtain ⟨m, hm, rfl⟩ := this
        exact .inr (.inr (.inr ⟨i, m, rfl, hm, by simp [Block.supply, ha, hs]⟩))

/-- An input request changes at most the amplifier's `inState`, and never to Finished. -/
theorem Amplifier.supply_keeps {a a' : Amplifier W} {v : Word W} (h : a.supply = .ok (v, a')) :
    { a' with inState := a.inState } = a ∧ a'.inState ≠ .finished := by
  unfold Amplifier.supply at h
  split at h
  · cases h; exact ⟨by cases a; simp, by simp⟩
  · rename_i hp
    split at h
    · cases h
    · cases h; exact ⟨by cases a; simp, by simp [hp]⟩
  · cases h

/-- A fault of the executing engine. -/
theorem Block.raise_of_executes {s : Block W} {id : EngineId} {e : Engine W} (h : Executes s id e)
    (r : FaultRecord W) :
    s.raise id e r = s.setEngine id { e with status := .faulted, fault := some r } := by
  rw [Block.raise_eq, Engine.raise_of_not_faulted _ _ (by rw [h.2.2]; decide)]

/-- Everything an instruction can do where an engine executes. -/
theorem exec_cases {s t : Block W} {id : EngineId} {e : Engine W} {i : Instr}
    (h : Executes s id e) (hx : exec i (.of s) = .next (.of t)) :
    (∃ r, t = s.setEngine id { e with status := .faulted, fault := some r } ∧
      (i.wf = true → r.Describes e)) ∨
    (∃ m1 m2 d v, i ∈ [Instr.add m1 m2, .mul m1 m2, .lt m1 m2, .eq m1 m2] ∧
      e.destination 3 = .ok d ∧ t = s.setEngine id ((e.store d v).advance 4)) ∨
    (∃ m1 m2 p, i ∈ [Instr.jt m1 m2, .jf m1 m2] ∧ t = s.setEngine id (e.jump p)) ∨
    (i = .hlt ∧ t = s.setEngine id e.halt) ∨
    (i = .inp ∧ ∃ d v s', e.destination 1 = .ok d ∧ s.supply id = .ok (v, s') ∧
      t = s'.setEngine id ((e.store d v).advance 2)) ∨
    (∃ m v, i = .out m ∧ e.operand m 1 = .ok v ∧
      t = (s.consume id v).setEngine id (if e.fb then e.suspend else e.advance 2)) := by
  have three : ∀ (f : Word W → Word W → Word W) (m1 m2 : Mode), i.wf = (m1.wf && m2.wf) →
      i ∈ [Instr.add m1 m2, .mul m1 m2, .lt m1 m2, .eq m1 m2] →
      s.execute (Engine.binary f m1 m2) = .next (.of t) →
      (∃ r, t = s.setEngine id { e with status := .faulted, fault := some r } ∧
        (i.wf = true → r.Describes e)) ∨
      (∃ m1 m2 d v, i ∈ [Instr.add m1 m2, .mul m1 m2, .lt m1 m2, .eq m1 m2] ∧
        e.destination 3 = .ok d ∧ t = s.setEngine id ((e.store d v).advance 4)) := by
    intro f m1 m2 hw hi hx
    rw [Block.execute_of_executes h] at hx
    obtain ⟨a, b, d, -, -, h3, hb⟩ | ⟨r, hf, hb⟩ := Engine.binary_cases f m1 m2 e
    · rw [hb] at hx; cases hx
      exact .inr ⟨m1, m2, d, f a b, hi, h3, rfl⟩
    · rw [hb] at hx; cases hx
      exact .inl ⟨r, Block.raise_of_executes h r, fun hwf => hf.describes (hw ▸ hwf)⟩
  have two : ∀ (f : Word W → Bool) (m1 m2 : Mode), i.wf = (m1.wf && m2.wf) →
      i ∈ [Instr.jt m1 m2, .jf m1 m2] →
      s.execute (Engine.branch f m1 m2) = .next (.of t) →
      (∃ r, t = s.setEngine id { e with status := .faulted, fault := some r } ∧
        (i.wf = true → r.Describes e)) ∨
      (∃ m1 m2 p, i ∈ [Instr.jt m1 m2, .jf m1 m2] ∧ t = s.setEngine id (e.jump p)) := by
    intro f m1 m2 hw hi hx
    rw [Block.execute_of_executes h] at hx
    obtain ⟨c, p, -, -, hb⟩ | ⟨r, hf, hb⟩ := Engine.branch_cases f m1 m2 e
    · rw [hb] at hx; cases hx
      refine .inr ⟨m1, m2, if f c then p.toInt else e.pc + 3, hi, ?_⟩
      dsimp only
      split <;> rfl
    · rw [hb] at hx; cases hx
      exact .inl ⟨r, Block.raise_of_executes h r, fun hwf => hf.describes (hw ▸ hwf)⟩
  cases i with
  | add m1 m2 => exact (three _ m1 m2 rfl (by simp) hx).imp_right .inl
  | mul m1 m2 => exact (three _ m1 m2 rfl (by simp) hx).imp_right .inl
  | lt m1 m2 => exact (three _ m1 m2 rfl (by simp) hx).imp_right .inl
  | eq m1 m2 => exact (three _ m1 m2 rfl (by simp) hx).imp_right .inl
  | jt m1 m2 => exact (two _ m1 m2 rfl (by simp) hx).imp_right fun h => .inr (.inl h)
  | jf m1 m2 => exact (two _ m1 m2 rfl (by simp) hx).imp_right fun h => .inr (.inl h)
  | hlt =>
    simp only [exec, execHlt, Block.execute_of_executes h] at hx
    cases hx
    exact .inr (.inr (.inr (.inl ⟨rfl, rfl⟩)))
  | inp =>
    simp only [exec, execIn, Block.onRunning_of_executes h] at hx
    split at hx
    · rename_i r hr
      cases hx
      exact .inl ⟨r, Block.raise_of_executes h r, fun _ => (Engine.destination_error hr).describes⟩
    · rename_i d hd
      obtain ⟨-, v, vs, -, hv⟩ | ⟨-, -, hv⟩ | ⟨j, a, v, a', -, -, -, hv⟩ | ⟨j, m, -, hm, hv⟩ :=
        s.supply_cases id <;> rw [hv] at hx <;> cases hx
      · exact .inr (.inr (.inr (.inr (.inl ⟨rfl, d, _, _, hd, hv, rfl⟩))))
      · exact .inr (.inr (.inr (.inr (.inl ⟨rfl, d, _, _, hd, hv, rfl⟩))))
      · exact .inr (.inr (.inr (.inr (.inl ⟨rfl, d, _, _, hd, hv, rfl⟩))))
      · exact .inl ⟨_, Block.raise_of_executes h _, fun _ => hm⟩
  | out m =>
    simp only [exec, execOut, Block.onRunning_of_executes h] at hx
    split at hx
    · rename_i r hr
      cases hx
      exact .inl ⟨r, Block.raise_of_executes h r,
        fun hw => (Engine.operand_error hr).describes hw (by decide) (by decide)⟩
    · rename_i v hv
      cases hx
      exact .inr (.inr (.inr (.inr (.inr ⟨m, v, rfl, hv, rfl⟩))))

/-- The step of an executing engine: it runs the fetched instruction, or enters Faulted with a true record. -/
theorem step_cycle_cases {s t : Block W} {id : EngineId} {e : Engine W} (h : Executes s id e)
    (hx : step (.of s) = .next (.of t)) :
    (∃ w i, e.mem.read e.pc = some w ∧ decode w = .ok i ∧ exec i (.of s) = .next (.of t)) ∨
    (∃ r, t = s.setEngine id { e with status := .faulted, fault := some r } ∧ r.Describes e) := by
  unfold step at hx
  simp only [h.1, h.2.1, h.2.2, if_true] at hx
  split at hx
  · rename_i i hf
    unfold Engine.fetch at hf
    split at hf
    · cases hf
    · rename_i w hw
      split at hf
      · rename_i hd; cases hf; exact .inl ⟨w, i, Engine.memRead_ok hw, hd, hx⟩
      · cases hf
  · rename_i r hf
    cases hx
    refine .inr ⟨r, Block.raise_of_executes h r, ?_⟩
    unfold Engine.fetch at hf
    split at hf
    · rename_i r' hr
      cases hf
      obtain ⟨hn, rfl⟩ := Engine.memRead_error hr
      exact ⟨rfl, Memory.read_eq_none.1 hn⟩
    · split at hf
      · cases hf
      · rename_i x hd; cases hf; exact ⟨rfl, hd⟩

end Sys2Proof.Machine
end

