-- ==== Sys2Proof/Laws/PerInstr.lean ====
section
/-! SUPPORT. One lemma per instruction about its encoding: the low two decimal digits of its opcode number are its opcode
value, and the number is below 10000, so it is a non-negative word (30_encoding.md R61, R74). -/

namespace Sys2Proof.Laws.OpcodeNumber

/-- The opcode number carries the opcode in its low two digits and no digit above digit 3. -/
def Statement (i : Instr) : Prop :=
  i.wf = true → i.opcodeNumber % 100 = i.opcode ∧ i.opcodeNumber < 10000

theorem two {m1 m2 : Mode} {op : Nat} (hop : op < 100) (h : (m1.wf && m2.wf) = true) :
    (m2.digit * 1000 + m1.digit * 100 + op) % 100 = op ∧
      m2.digit * 1000 + m1.digit * 100 + op < 10000 := by
  simp only [Bool.and_eq_true] at h
  have h1 := Mode.digit_lt h.1
  have h2 := Mode.digit_lt h.2
  omega

theorem add (m1 m2 : Mode) : Statement (.add m1 m2) := fun h => two (by decide) h
theorem mul (m1 m2 : Mode) : Statement (.mul m1 m2) := fun h => two (by decide) h
theorem inp : Statement .inp := fun _ => by decide
theorem out (m1 : Mode) : Statement (.out m1) := fun h => by
  have h1 := Mode.digit_lt (m := m1) h
  simp only [Instr.opcodeNumber, Instr.opcode]
  omega
theorem jt (m1 m2 : Mode) : Statement (.jt m1 m2) := fun h => two (by decide) h
theorem jf (m1 m2 : Mode) : Statement (.jf m1 m2) := fun h => two (by decide) h
theorem lt (m1 m2 : Mode) : Statement (.lt m1 m2) := fun h => two (by decide) h
theorem eq (m1 m2 : Mode) : Statement (.eq m1 m2) := fun h => two (by decide) h
theorem hlt : Statement .hlt := fun _ => by decide

end Sys2Proof.Laws.OpcodeNumber
end

