-- ==== Sys2Proof/Tests/Slice0.lean ====
section
/-! SUPPORT. The model's own tests. Expected results are the spec's: its decoding examples (30_encoding.md R75) and its
test vectors (95_test_vectors.md), named by their id. After them, for every statement with hypotheses, a concrete state
and operands that meet them (theorems `witness_…`). -/

namespace Sys2Proof.Tests

open Sys2Proof Sys2Proof.Machine

/-- The width of the tests, the spec's default, but for those that name another. -/
abbrev W : Nat := 64

/-! ### Helpers -/

/-- A word of the tests' width. -/
abbrev word (v : Int) : Word W := wrap v

def words (P : List Int) : List (Word W) := P.map word

/-- A fresh Running engine over an image. -/
def eng (P : List Int) (pc : Int := 0) (fb : Bool := false) : Engine W :=
  { mem := words P, pc := pc, status := .running, fault := none, fb := fb }

/-- An engine that an earlier step has left in some status. -/
def stopped (P : List Int) (pc : Int) (status : Status) (fault : Option (FaultRecord W) := none)
    (fb : Bool := false) : Engine W :=
  { mem := words P, pc := pc, status := status, fault := fault, fb := fb }

def amp (e : Engine W) (image : List Int) (pending : Option (Word W)) (inState : InState)
    (lastOut : Option (Word W)) (phase : Int := 7) : Amplifier W :=
  { engine := e, image := words image, phase := word phase, pending := pending, inState := inState
    lastOut := lastOut }

/-- The block with only a host engine and a call active or waiting. -/
def hostState (e : Engine W) (act : Activity := .engine .host) (ins : List Int := [])
    (calls : List (HostCall W) := []) : Block W :=
  { Block.reset with
    host := { engine := e, inputs := words ins, outputs := [] }, activity := act, calls := calls }

/-- The block with only a ring. -/
def ringState (amps : List (Amplifier W)) (act : Activity) (fbMode : Bool := false) (signal : Int := 0)
    (calls : List (HostCall W) := []) : Block W :=
  { Block.reset with
    circuit := { amps := amps, signal := word signal, fbMode := fbMode }, activity := act
    calls := calls }

/-- The answer is a next state of the tests' width, and its block satisfies `p`. -/
def nextSat (o : Outcome) (p : Block W → Bool) : Bool :=
  match o with
  | .next t => if h : t.width = W then p (h ▸ t.block) else false
  | .fault _ => false
  | .refused _ => false

theorem of_nextSat {o : Outcome} {p : Block W → Bool} (h : nextSat o p = true) :
    ∃ t : Block W, o = .next (.of t) ∧ p t = true := by
  unfold nextSat at h
  split at h
  · split at h
    · rename_i t hw
      obtain ⟨b⟩ := t
      cases hw
      exact ⟨b, rfl, h⟩
    · cases h
  · cases h
  · cases h

/-- One step of the host's engine over `P` leaves it as given. -/
def stepsTo (P : List Int) (e : Engine W) (pc : Int := 0) (fb : Bool := false) (ins : List Int := []) :
    Bool :=
  nextSat (step (.of (hostState (eng P pc fb) (ins := ins)))) fun t => t.host.engine = e

/-- One step of the host's engine over `P` faults, with memory and `pc` unchanged. -/
def faultsWith (P : List Int) (r : FaultRecord W) (pc : Int := 0) : Bool :=
  stepsTo P (stopped P pc .faulted (some r)) pc

/-! ### Well-formedness: an ill-formed term for each check -/

theorem test_wf_refuses_add_1 : (Instr.add (.invalid 1) .position).wf = false := by decide
theorem test_wf_refuses_add_2 : (Instr.add .position (.invalid 0)).wf = false := by decide
theorem test_wf_refuses_mul_1 : (Instr.mul (.invalid 10) .position).wf = false := by decide
theorem test_wf_refuses_mul_2 : (Instr.mul .position (.invalid 10)).wf = false := by decide
theorem test_wf_refuses_out : (Instr.out (.invalid 0)).wf = false := by decide
theorem test_wf_refuses_jt_1 : (Instr.jt (.invalid 1) .immediate).wf = false := by decide
theorem test_wf_refuses_jt_2 : (Instr.jt .immediate (.invalid 1)).wf = false := by decide
theorem test_wf_refuses_jf_1 : (Instr.jf (.invalid 1) .immediate).wf = false := by decide
theorem test_wf_refuses_jf_2 : (Instr.jf .immediate (.invalid 10)).wf = false := by decide
theorem test_wf_refuses_lt_1 : (Instr.lt (.invalid 0) .position).wf = false := by decide
theorem test_wf_refuses_lt_2 : (Instr.lt .position (.invalid 1)).wf = false := by decide
theorem test_wf_refuses_eq_1 : (Instr.eq (.invalid 0) .position).wf = false := by decide
theorem test_wf_refuses_eq_2 : (Instr.eq .position (.invalid 1)).wf = false := by decide

/-! ### Decoding: words written out from 30_encoding.md R75 and the decoder's table of 95_test_vectors.md -/

/-- What a word decodes to; none for Unknown. -/
def decoded (w : Int) : Option Instr := (decode (word w)).toOption

theorem test_decode_add : decoded 1 = some (.add .position .position) ∧
    decoded 1101 = some (.add .immediate .immediate) ∧
    decoded 11101 = some (.add .immediate .immediate) ∧
    decoded 201 = some (.add (.invalid 2) .position) ∧
    decoded 1201 = some (.add (.invalid 2) .immediate) := by decide
theorem test_decode_mul : decoded 1002 = some (.mul .position .immediate) ∧
    decoded 2 = some (.mul .position .position) := by decide
theorem test_decode_in : decoded 3 = some .inp ∧ decoded 103 = some .inp := by decide
theorem test_decode_out : decoded 4 = some (.out .position) ∧ decoded 104 = some (.out .immediate) ∧
    decoded 204 = some (.out (.invalid 2)) ∧ decoded 100004 = some (.out .position) := by decide
theorem test_decode_jt : decoded 1105 = some (.jt .immediate .immediate) ∧
    decoded 1005 = some (.jt .position .immediate) ∧
    decoded 105 = some (.jt .immediate .position) := by decide
theorem test_decode_jf : decoded 6 = some (.jf .position .position) ∧
    decoded 1006 = some (.jf .position .immediate) := by decide
theorem test_decode_lt : decoded 1007 = some (.lt .position .immediate) ∧
    decoded 107 = some (.lt .immediate .position) := by decide
theorem test_decode_eq : decoded 8 = some (.eq .position .position) ∧
    decoded 1108 = some (.eq .immediate .immediate) ∧
    decoded 1008 = some (.eq .position .immediate) := by decide
theorem test_decode_hlt : decoded 99 = some .hlt ∧ decoded 10099 = some .hlt ∧
    decoded 2299 = some .hlt := by decide

/-- The value an Unknown word is reported with. -/
def unknown (w : Int) : Option Int :=
  match decode (word w) with
  | .error (.unknown x) => some x
  | .ok _ => none

theorem test_decode_unknown : unknown 0 = some 0 ∧ unknown 9 = some 9 ∧ unknown 42 = some 42 ∧
    unknown 98 = some 98 ∧ unknown 1100 = some 0 ∧ unknown (-1) = some (-1) ∧
    unknown (-99) = some (-99) ∧ unknown (-101) = some (-101) := by decide

theorem test_opcodeWord : opcodeWord (.eq .immediate .immediate) = word 1108 ∧
    opcodeWord (.jf .position .immediate) = word 1006 ∧ opcodeWord .inp = word 3 ∧
    opcodeWord .hlt = word 99 := by decide

/-- The rows of spec/opcode_table.json, by their `match`. -/
theorem test_decodeTableWord : (List.map (decodeTableWord 64) [1, 2, 3, 4, 5, 6, 7, 8, 99]) =
    [some (.add .position .position), some (.mul .position .position), some .inp,
     some (.out .position), some (.jt .position .position), some (.jf .position .position),
     some (.lt .position .position), some (.eq .position .position), some .hlt] := by decide

/-- From reset, the step after `withFetchWord` runs the instruction given: HLT, at the sentinel 4. -/
theorem test_withFetchWord : nextSat (step (State.reset.withFetchWord 64 99)) (fun t =>
    t.host.engine.status = .halted ∧ t.host.engine.pc = 4) = true := by decide

/-! ### Instructions -/

theorem test_V_ADD_2 : stepsTo [1101, 9223372036854775807, 1, 5, 99, 0]
    (eng [1101, 9223372036854775807, 1, 5, 99, -9223372036854775808] 4) = true := by decide
theorem test_V_ADD_6 : stepsTo [1001, 0, 5, 0, 99] (eng [1006, 0, 5, 0, 99] 4) = true := by decide
theorem test_V_MUL_1 : stepsTo [1102, -3, 4, 5, 99, 0] (eng [1102, -3, 4, 5, 99, -12] 4) = true := by
  decide
theorem test_V_MUL_6 : stepsTo [1102, 9223372036854775807, 9223372036854775807, 5, 99, 0]
    (eng [1102, 9223372036854775807, 9223372036854775807, 5, 99, 1] 4) = true := by decide
theorem test_V_LT_2 : stepsTo [1107, 8, 8, 5, 99, 0] (eng [1107, 8, 8, 5, 99, 0] 4) = true := by decide
theorem test_V_LT_4 : stepsTo [1107, -9223372036854775808, 9223372036854775807, 5, 99, 7]
    (eng [1107, -9223372036854775808, 9223372036854775807, 5, 99, 1] 4) = true := by decide
theorem test_V_EQ_2 : stepsTo [1108, 0, 1, 5, 99, 7] (eng [1108, 0, 1, 5, 99, 0] 4) = true := by decide
theorem test_V_EQ_3 : stepsTo [8, 0, 0, 5, 99, 7] (eng [8, 0, 0, 5, 99, 1] 4) = true := by decide
/-- The first step of L1-2. -/
theorem test_L1_2_in : stepsTo [3, 3, 1108, -1, 8, 3, 4, 3, 99]
    (eng [3, 3, 1108, 8, 8, 3, 4, 3, 99] 2) (ins := [8]) = true := by decide
/-- 43_io.md R106, on the program of V-SR-1: one word out, then Suspended at the OUT. -/
theorem test_V_SR_1 : nextSat (step (.of (hostState (eng [104, 1, 99] 0 true)))) (fun t =>
    t.host.engine = stopped [104, 1, 99] 0 .suspended none true ∧ t.host.outputs = words [1]) = true := by
  decide
theorem test_V_SYS_2_out : nextSat (step (.of (hostState (eng [104, 1])))) (fun t =>
    t.host.engine = eng [104, 1] 2 ∧ t.host.outputs = words [1]) = true := by decide
theorem test_V_JT_6 : stepsTo [1105, -7, 4, 99, 99] (eng [1105, -7, 4, 99, 99] 4) = true := by decide
theorem test_V_JT_4 : faultsWith [5, 4, 9, 99, 0] (.outOfRange 9 0 .operand) = true := by decide
theorem test_V_JF_2 : stepsTo [1106, 5, 4, 99, 0] (eng [1106, 5, 4, 99, 0] 3) = true := by decide
theorem test_V_JF_3 : stepsTo [6, 5, 6, 99, 99, 0, 4] (eng [6, 5, 6, 99, 99, 0, 4] 4) = true := by
  decide
theorem test_V_HLT_3 : stepsTo [2299, 5] (stopped [2299, 5] 2 .halted) = true := by decide

/-! ### Another width -/

/-- One step of the host's engine over `P`, in words of `V` bits, leaves it Running at `pc` over `Q`. -/
def stepsAt (V : Nat) (P Q : List Int) (pc : Int) : Bool :=
  let s (M : List Int) (pc : Int) : Block V := { Block.reset with
    host := { engine := { Engine.fresh (M.map fun v => wrap v) false with pc := pc }, inputs := [], outputs := [] }
    activity := .engine .host }
  match step (.of (s P 0)) with
  | .next t => t = .of (s Q pc)
  | .fault _ => false
  | .refused _ => false

/-- V-ADD-2 in 32 bits: `(2^(W-1) - 1) + 1` is `-2^(W-1)`. -/
theorem test_add_wraps_in_32_bits : stepsAt 32 [1101, 2147483647, 1, 5, 99, 0]
    [1101, 2147483647, 1, 5, 99, -2147483648] 4 = true := by decide
/-- V-MUL-6 in 32 bits: `(2^(W-1) - 1)^2` is 1. -/
theorem test_mul_wraps_in_32_bits : stepsAt 32 [1102, 2147483647, 2147483647, 5, 99, 0]
    [1102, 2147483647, 2147483647, 5, 99, 1] 4 = true := by decide

/-! ### Faults -/

theorem test_V_UNS_3 : faultsWith [-1] (.unsupportedOpcode (-1) (word (-1)) 0) = true := by decide
theorem test_V_UNS_4 : faultsWith [1100, 1, 1] (.unsupportedOpcode 0 (word 1100) 0) = true := by decide
theorem test_V_ADD_8 : faultsWith [1101, 1, 1, 10, 99] (.outOfRange 10 0 .destination) = true := by
  decide
theorem test_V_ADD_12 : faultsWith [1101, 1, 1] (.outOfRange 3 0 .parameter) = true := by decide
theorem test_V_PRI_1 : faultsWith [201, 0] (.illegalMode 2 1 0) = true := by decide
theorem test_V_JT_5_fetch : faultsWith [1105, 1, -5] (.outOfRange (-5) (-5) .fetch) (-5) = true := by
  decide
theorem test_V_SYS_1 : faultsWith [] (.outOfRange 0 0 .fetch) = true := by decide

/-- 60_exceptions.md R151. -/
theorem test_fault_codes : [(.outOfRange 0 0 .fetch : FaultRecord W), .unsupportedOpcode 0 0 0,
    .callerMisuse .emptyRing, .illegalMode 2 1 0, .noOutput 0, .ringDesync []].map FaultRecord.code =
    [1, 2, 3, 4, 5, 6] := by decide

/-! ### Host calls -/

/-- The reply of one host call on a fresh engine over `99, 5, 6`. -/
def replies (c : HostCall W) (r : Reply W) (e : Engine W := eng [99, 5, 6]) : Bool :=
  nextSat (step (.of (hostState (eng [99, 5, 6]) .idle [] [c]))) fun t =>
    t.reply = some r ∧ t.activity = .idle ∧ t.host.engine = e

theorem test_readAddress : replies (.readAddress .host 1) (.word (word 5)) = true ∧
    replies (.readAddress .host 3) (.fault (.outOfRange 3 0 .host))
      (stopped [99, 5, 6] 0 .faulted (some (.outOfRange 3 0 .host))) = true := by decide
theorem test_readWords : replies (.readWords .host 1 2) (.words (words [5, 6])) = true ∧
    replies (.readWords .host 2 2) (.fault (.callerMisuse .inspectionRange))
      (stopped [99, 5, 6] 0 .faulted (some (.callerMisuse .inspectionRange))) = true := by decide
theorem test_poke : replies (.poke .host 0 (word 104)) .done (eng [104, 5, 6]) = true := by decide
theorem test_V_SR_2 : replies (.resume .host) (.fault (.callerMisuse .resumeNotSuspended))
    (stopped [99, 5, 6] 0 .faulted (some (.callerMisuse .resumeNotSuspended))) = true := by decide

/-! ### The amplifier and the circuit -/

/-- V-AMP-2: the third IN receives 5 although the second did (pending is not consumed, 45_amplifier.md R123). -/
theorem test_V_AMP_2_in : nextSat (step (.of (ringState
      [amp (eng [3, 10, 3, 11, 3, 12, 4, 12, 99, 0, 7, 5, 0] 4) [] (some (word 5)) .phaseDelivered none]
      (.amplifier 0))))
    (fun t => t.circuit.amps = [amp (eng [3, 10, 3, 11, 3, 12, 4, 12, 99, 0, 7, 5, 5] 6) []
      (some (word 5)) .phaseDelivered none]) = true := by decide
/-- V-AMP-3: a halted engine and no output. -/
theorem test_V_AMP_3_return : nextSat (step (.of (ringState
      [amp (stopped [3, 3, 99, 1] 4 .halted) [] (some (word 1)) .phaseDelivered none] (.amplifier 0))))
    (fun t => t.reply = some (.fault (.noOutput 0)) ∧
      t.circuit.amps.map (·.inState) = [.finished]) = true := by decide
/-- V-CIR-3: one of two amplifiers is Halted at the end of a pass. -/
theorem test_V_CIR_3_desync : nextSat (step (.of (ringState
      [amp (stopped [99] 1 .halted) [99] (some 5) .finished (some 5),
       amp (stopped [4, 0] 0 .suspended) [4, 0] (some 5) .phaseDelivered (some 5)] (.circuit 1) true)))
    (fun t => t.reply = some (.fault (.ringDesync [0])) ∧ t.activity = .idle) = true := by decide
/-- L1-6: amplifier 0 has returned 4, which amplifier 1 is given. -/
theorem test_L1_6_carry : nextSat (step (.of (ringState
      [amp (stopped [99] 1 .halted) [99] (some 0) .phaseDelivered (some 4),
       amp (eng [99]) [99] none .awaitingPhase none] (.circuit 0))))
    (fun t => t.activity = .circuit 1 ∧ t.circuit.signal = 4 ∧
      t.circuit.amps.map (·.pending) = [some 0, some 4]) = true := by decide
theorem test_V_CIR_9 : nextSat (step (.of (hostState (eng []) .idle [] [.constructCircuit (words [99]) []])))
    (fun t => t.reply = some (.fault (.callerMisuse .emptyRing))) = true := by decide

/-! ### Assembly -/

/-- Program P1 of 95_test_vectors.md as lines. -/
def programP1 : List AsmLine :=
  [.inp (.lit 16), .labelled "loop", .add (.pos (.lit 17)) (.pos (.lit 16)) (.lit 17),
   .add (.pos (.lit 16)) (.imm (.lit (-1))) (.lit 16), .jt (.pos (.lit 16)) (.imm (.label "loop")),
   .out (.pos (.lit 17)), .hlt, .labelled "n", .word [.lit 0], .labelled "acc", .word [.lit 0]]

theorem test_assemble_P1 : (assemble programP1).toOption =
    some (words [3, 16, 1, 17, 16, 17, 1001, 16, -1, 16, 1005, 16, 2, 4, 17, 99, 0, 0]) := by decide
theorem test_assemble_rejects :
    (assemble (W := W) [.jmp (.imm (.label "x"))]).toOption = none ∧
    (assemble (W := W) [.labelled "x", .labelled "x"]).toOption = none ∧
    (assemble (W := W) [.word [.lit 9223372036854775808]]).toOption = none := by decide
/-- In 8 bits 99 is a word and 1101, the opcode word of the line, is not. -/
theorem test_assemble_in_8_bits : (assemble (W := 8) [.hlt]).toOption = some [99] ∧
    (assemble (W := 8) [.add (.imm (.lit 1)) (.imm (.lit 1)) (.lit 0)]).toOption = none := by decide
theorem test_showLine : showLine (.eq (.imm (.label "x")) (.imm (.lit 8)) (.lit 3)) = "EQ #x, #8, [3]" := by
  decide

/-! ### Witnesses: encoding and storage -/

/-- Also the width the written words and the pseudo-instructions ask for. -/
theorem witness_DecodeOfEncode :
    (Instr.add (.invalid 9) .immediate).wf = true ∧
    (Instr.add (.invalid 9) .immediate).opcodeNumber < 2 ^ (W - 1) ∧
    (words [1, -1, 5]).length = (Instr.add (.invalid 9) .immediate).arity ∧ 12 ≤ W := by decide
theorem witness_EncodedWord : decode (word 11901) = .ok (.add (.invalid 9) .immediate) ∧
    decode (word 103) = .ok .inp ∧ decode (word 100004) = .ok (.out .position) ∧
    decode (word 2299) = .ok .hlt := ⟨rfl, rfl, rfl, rfl⟩
theorem witness_DecodeFollows_negative : (word (-1)).toInt < 0 := by decide
theorem witness_DecodeFollows_rows : ∀ n ∈ [1, 2, 3, 4, 5, 6, 7, 8, 99],
    0 ≤ (word (1100 + n : Nat)).toInt ∧ (word (1100 + n : Nat)).toNat % 100 = n := by decide
theorem witness_DecodeFollows_unknown : ∀ n ∈ [0, 9, 98],
    0 ≤ (word (n : Nat)).toInt ∧
    ((word (n : Nat)).toNat % 100 = 0 ∨
      9 ≤ (word (n : Nat)).toNat % 100 ∧ (word (n : Nat)).toNat % 100 ≤ 98) := by decide
theorem witness_UnconsultedDigits : ∀ p ∈ [(103, 3), (2299, 99), (100104, 1104), (11101, 1101)],
    0 ≤ (word (p.1 : Nat)).toInt ∧ 0 ≤ (word (p.2 : Nat)).toInt ∧
    (word (p.1 : Nat)).toNat % 100 = (word (p.2 : Nat)).toNat % 100 ∧
    digit 2 (word (p.1 : Nat)).toNat = digit 2 (word (p.2 : Nat)).toNat ∨
      (word (p.1 : Nat)).toNat % 100 = 3 ∨ (word (p.1 : Nat)).toNat % 100 = 99 := by decide
theorem witness_AssembledLine :
    lineInstr (expandLine (.jmp (.imm (.label "x")))) =
      some (.jt .immediate .immediate, [.lit 1, .label "x"]) ∧
    lineWords [("x", 7)] (.jmp (.imm (.label "x"))) = .ok (words [1105, 1, 7]) := ⟨rfl, rfl⟩
/-- The bounds of the storage checks, on a storage of three words. -/
theorem witness_bounds : let m : Memory W := words [99, 5, 6]
    m.inRange 0 ∧ m.inRange 2 ∧ ¬ m.inRange (-1) ∧ ¬ m.inRange 3 := by decide

/-! ### Witnesses: parameters -/

theorem source_position {e : Engine W} {k : Nat} (pw v : Word W) (h1 : e.mem.read (e.pc + k) = some pw)
    (h2 : e.mem.read pw.toInt = some v) : e.SourceIs .position k v := ⟨pw, h1, h2⟩
theorem source_immediate {e : Engine W} {k : Nat} (v : Word W) (h : e.mem.read (e.pc + k) = some v) :
    e.SourceIs .immediate k v := ⟨v, h, rfl⟩
theorem destination_is {e : Engine W} {k : Nat} (pw : Word W) (h : e.mem.read (e.pc + k) = some pw)
    (hr : e.mem.inRange pw.toInt) : e.DestinationIs k pw.toInt := ⟨⟨pw, h, rfl⟩, hr⟩

theorem witness_Source_position : (eng [1, 4, 0, 0, 21]).SourceIs .position 1 (word 21) :=
  source_position (word 4) _ (by decide) (by decide)
theorem witness_Source_immediate : (eng [1101, -5, 0, 0]).SourceIs .immediate 1 (word (-5)) :=
  source_immediate _ (by decide)
theorem witness_SourceFails_parameter :
    (eng [1101, 1]).SourceFails .immediate 2 (.outOfRange 2 0 .parameter) := .inl ⟨by decide, rfl⟩
theorem witness_SourceFails_operand :
    (eng [1, -1, 0, 0]).SourceFails .position 1 (.outOfRange (-1) 0 .operand) :=
  .inr ⟨word (-1), by decide, by decide, by decide⟩
theorem witness_SourceFails_mode :
    (eng [201, 0, 0, 0]).SourceFails (.invalid 2) 1 (.illegalMode 2 1 0) :=
  .inr ⟨word 0, by decide, rfl⟩
theorem witness_Destination : (eng [1101, 1, 1, 3]).DestinationIs 3 3 :=
  destination_is (word 3) (by decide) (by decide)
theorem witness_DestinationFails_parameter :
    (eng [1101, 1, 1]).DestinationFails 3 (.outOfRange 3 0 .parameter) := .inl ⟨by decide, rfl⟩
theorem witness_DestinationFails_range :
    (eng [1101, 1, 1, 4]).DestinationFails 3 (.outOfRange 4 0 .destination) :=
  .inr ⟨word 4, by decide, by decide, by decide⟩

/-! ### Witnesses: instructions -/

theorem host_executes (P : List Int) (pc : Int) (fb : Bool) (ins : List Int) :
    Executes (hostState (eng P pc fb) (ins := ins)) .host (eng P pc fb) := ⟨rfl, rfl, rfl⟩

/-- ADD, MUL, LT and EQ: both sources and the destination resolve. -/
theorem witness_three : let e := eng [1101, 2, 3, 5, 99, 0]
    Executes (hostState e) .host e ∧ e.SourceIs .immediate 1 (word 2) ∧
    e.SourceIs .immediate 2 (word 3) ∧ e.DestinationIs 3 5 :=
  ⟨host_executes _ _ _ _, source_immediate _ (by decide), source_immediate _ (by decide),
    destination_is (word 5) (by decide) (by decide)⟩
/-- The opcode words of the LT, EQ and OUT statements. -/
theorem witness_opcode_words : 0 ≤ (word 100104).toInt ∧ (word 100104).toNat % 100 = 4 ∧
    0 ≤ (word 11107).toInt ∧ (word 11107).toNat % 100 = 7 ∧
    0 ≤ (word 11108).toInt ∧ (word 11108).toNat % 100 = 8 := by decide
/-- Format F3 fails at its first, second and third parameter. -/
theorem witness_ThreeFail :
    (eng [201, 0, 0, 0]).ThreeFail (.invalid 2) .position (.illegalMode 2 1 0) ∧
    (eng [1101, 1]).ThreeFail .immediate .immediate (.outOfRange 2 0 .parameter) ∧
    (eng [1101, 1, 1, 4]).ThreeFail .immediate .immediate (.outOfRange 4 0 .destination) :=
  ⟨.inl witness_SourceFails_mode,
   .inr (.inl ⟨word 1, source_immediate _ (by decide), witness_SourceFails_parameter⟩),
   .inr (.inr ⟨word 1, word 1, source_immediate _ (by decide), source_immediate _ (by decide),
     witness_DestinationFails_range⟩)⟩
theorem witness_In_host : let e := eng [3, 1]
    Executes (hostState e (ins := [8])) .host e ∧ e.DestinationIs 1 1 ∧
    (hostState e (ins := [8])).host.inputs = [word 8] ∧ (hostState e).host.inputs = [] ∧
    Executes (hostState e) .host e :=
  ⟨host_executes _ _ _ _, destination_is (word 1) (by decide) (by decide), rfl, rfl,
    host_executes _ _ _ _⟩

/-- An amplifier about to execute `3, 1`. -/
def inAmp (pending : Option (Word W)) (inState : InState) : Amplifier W :=
  amp (eng [3, 1]) [3, 1] pending inState none

/-- Each of the four arms of the amplifier's source. -/
theorem witness_In_amplifier : ∀ a ∈ [inAmp (some 5) .awaitingPhase, inAmp (some 5) .phaseDelivered,
      inAmp none .phaseDelivered, inAmp none .finished],
    let s := ringState [a] (.amplifier 0)
    s.activity.engineId = some (.ring 0) ∧ s.circuit.amps[0]? = some a ∧
    a.engine.status = .running ∧ a.engine.DestinationIs 1 1 := by
  have hd : (eng [3, 1]).DestinationIs 1 1 := destination_is (word 1) (by decide) (by decide)
  simp only [List.mem_cons, List.not_mem_nil, or_false]
  rintro a (rfl | rfl | rfl | rfl) <;> exact ⟨rfl, rfl, rfl, hd⟩
theorem witness_Out_host : let e := eng [104, 1, 99] 0 true
    Executes (hostState e) .host e ∧ e.SourceIs .immediate 1 (word 1) :=
  ⟨host_executes _ _ _ _, source_immediate _ (by decide)⟩
theorem witness_Out_amplifier : let a := amp (eng [104, 1]) [104, 1] none .awaitingPhase none
    (ringState [a] (.circuit 0)).activity.engineId = some (.ring 0) ∧
    (ringState [a] (.circuit 0)).circuit.amps[0]? = some a ∧ a.engine.status = .running ∧
    a.engine.SourceIs .immediate 1 (word 1) :=
  ⟨rfl, rfl, rfl, source_immediate _ (by decide)⟩
/-- JT and JF: condition and target resolve. -/
theorem witness_jump : let e := eng [1005, 4, 7, 99, 0]
    Executes (hostState e) .host e ∧ e.SourceIs .position 1 (word 0) ∧
    e.SourceIs .immediate 2 (word 7) :=
  ⟨host_executes _ _ _ _, source_position (word 4) _ (by decide) (by decide),
    source_immediate _ (by decide)⟩
/-- V-JT-4: the condition resolves and the target does not. -/
theorem witness_jump_fails : let e := eng [5, 4, 9, 99, 0]
    Executes (hostState e) .host e ∧ e.TwoFail .position .position (.outOfRange 9 0 .operand) :=
  ⟨host_executes _ _ _ _, .inr ⟨word 0, source_position (word 4) _ (by decide) (by decide),
    .inr ⟨word 9, by decide, by decide, by decide⟩⟩⟩
theorem witness_In_Out_fail :
    (let e := eng [3, 50]
     Executes (hostState e) .host e ∧ e.DestinationFails 1 (.outOfRange 50 0 .destination)) ∧
    (let e := eng [4, 9]
     Executes (hostState e) .host e ∧ e.SourceFails .position 1 (.outOfRange 9 0 .operand)) :=
  ⟨⟨host_executes _ _ _ _, .inr ⟨word 50, by decide, by decide, by decide⟩⟩,
   ⟨host_executes _ _ _ _, .inr ⟨word 9, by decide, by decide, by decide⟩⟩⟩
theorem witness_nothing_executes : ¬ ∃ id e, Executes (Block.reset (W := W)) id e := by
  rintro ⟨id, e, h, -⟩; cases h
/-- The fetch faults at both ends of the storage, and the two kinds of unsupported words. -/
theorem witness_fetch_faults :
    ((eng [99] (-1)).pc < 0 ∧ ((eng [99] 1).mem.length : Int) ≤ (eng [99] 1).pc) ∧
    ((eng [-1]).mem.read 0 = some (word (-1)) ∧ (word (-1)).toInt < 0) ∧
    ((eng [98]).mem.read 0 = some (word 98) ∧ 0 ≤ (word 98).toInt ∧
      9 ≤ (word 98).toNat % 100 ∧ (word 98).toNat % 100 ≤ 98) ∧
    ((eng [1100]).mem.read 0 = some (word 1100) ∧ (word 1100).toNat % 100 = 0) := by decide
/-- The three cases of a cycle. -/
theorem witness_step_decodes :
    (let e := eng [99]
     Executes (hostState e) .host e ∧ e.mem.read e.pc = some (word 99) ∧ decode (word 99) = .ok .hlt) ∧
    (let e := eng [42]
     Executes (hostState e) .host e ∧ e.mem.read e.pc = some (word 42) ∧
     decode (word 42) = .error (.unknown 42)) ∧
    (let e := eng [99] 1
     Executes (hostState e) .host e ∧ e.mem.read e.pc = none) :=
  ⟨⟨host_executes _ _ _ _, by decide, rfl⟩, ⟨host_executes _ _ _ _, by decide, rfl⟩,
   ⟨host_executes _ _ _ _, by decide⟩⟩

/-! ### Witnesses: frames and isolation -/

/-- Each instruction answers a next state here, as the frames and the statement about the width ask. -/
theorem witness_frames : ∀ p ∈ [(Instr.add .immediate .immediate, [1101, 2, 3, 5, 99, 0]),
      (.mul .immediate .immediate, [1102, 2, 3, 5, 99, 0]),
      (.lt .immediate .immediate, [1107, 2, 3, 5, 99, 0]),
      (.eq .immediate .immediate, [1108, 2, 3, 5, 99, 0]), (.inp, [3, 1]),
      (.out .immediate, [104, 1]), (.jt .immediate .immediate, [1105, 1, 7]),
      (.jf .immediate .immediate, [1106, 1, 7]), (.hlt, [99])],
    Executes (hostState (eng p.2) (ins := [8])) .host (eng p.2) ∧
    ∃ t : Block W, exec p.1 (.of (hostState (eng p.2) (ins := [8]))) = .next (.of t) := by
  intro p hp
  refine ⟨host_executes _ _ _ _, ?_⟩
  have h : ∀ p ∈ [(Instr.add .immediate .immediate, [1101, 2, 3, 5, 99, 0]),
      (.mul .immediate .immediate, [1102, 2, 3, 5, 99, 0]),
      (.lt .immediate .immediate, [1107, 2, 3, 5, 99, 0]),
      (.eq .immediate .immediate, [1108, 2, 3, 5, 99, 0]), (.inp, [3, 1]),
      (.out .immediate, [104, 1]), (.jt .immediate .immediate, [1105, 1, 7]),
      (.jf .immediate .immediate, [1106, 1, 7]), (.hlt, [99])],
      nextSat (exec p.1 (.of (hostState (eng p.2) (ins := [8])))) (fun _ => true) = true := by decide
  obtain ⟨t, ht, -⟩ := of_nextSat (h p hp)
  exact ⟨t, ht⟩

/-- Two rings that agree on amplifier 1 and differ elsewhere, and a ring and a host cycle. -/
theorem witness_isolation :
    let a := amp (eng [99]) [99] none .awaitingPhase none
    let b := amp (eng [104, 1]) [104, 1] none .awaitingPhase none
    let s := ringState [a, b] (.circuit 1)
    let s' := ringState [b, b] (.circuit 1) true 5
    Executes s (.ring 1) (eng [104, 1]) ∧ Executes s' (.ring 1) (eng [104, 1]) ∧
    s.circuit.amps[1]? = s'.circuit.amps[1]? ∧ (∃ t : Block W, step (.of s) = .next (.of t)) ∧
    Executes (hostState (eng [99])) .host (eng [99]) ∧
    ∃ t : Block W, step (.of (hostState (eng [99]))) = .next (.of t) := by
  refine ⟨⟨rfl, rfl, rfl⟩, ⟨rfl, rfl, rfl⟩, rfl, ?_, host_executes _ _ _ _, ?_⟩
  · obtain ⟨t, ht, -⟩ := of_nextSat (o := step (.of (ringState [amp (eng [99]) [99] none .awaitingPhase none,
      amp (eng [104, 1]) [104, 1] none .awaitingPhase none] (.circuit 1)))) (p := fun _ => true) (by decide)
    exact ⟨t, ht⟩
  · obtain ⟨t, ht, -⟩ := of_nextSat (o := step (.of (hostState (eng [99])))) (p := fun _ => true) (by decide)
    exact ⟨t, ht⟩

/-! ### Witnesses: the status machine -/

/-- A step on which an engine goes from one status to another. -/
def goes (s : Block W) (id : EngineId) (before after : Status) : Bool :=
  (s.engine? id).any (fun e => e.status = before) &&
    nextSat (step (.of s)) fun t => (t.engine? id).any fun e => e.status = after

theorem of_goes {s : Block W} {id : EngineId} {b a : Status} (h : goes s id b a = true) :
    ∃ (t : Block W) (e e' : Engine W), step (.of s) = .next (.of t) ∧
      s.engine? id = some e ∧ t.engine? id = some e' ∧
      e.status = b ∧ e'.status = a := by
  simp only [goes, Bool.and_eq_true] at h
  obtain ⟨h1, h2⟩ := h
  obtain ⟨t, ht, h2⟩ := of_nextSat h2
  simp only [Option.any_eq_true, decide_eq_true_eq] at h1 h2
  obtain ⟨e, he, hb⟩ := h1
  obtain ⟨e', he', ha⟩ := h2
  exact ⟨t, e, e', ht, he, he', hb, ha⟩

/-- The host's engine in each status, over `104, 1, 99`, with no call active. -/
def idleIn (st : Status) (calls : List (HostCall W)) : Block W :=
  hostState (stopped [104, 1, 99] 0 st (if st = .faulted then some (.outOfRange 3 0 .host) else none))
    .idle [] calls

theorem witness_suspends : goes (hostState (eng [104, 1, 99] 0 true)) .host .running .suspended = true := by
  decide
theorem witness_halts : goes (hostState (eng [99])) .host .running .halted = true := by decide
theorem witness_stays_faulted : goes (idleIn .faulted [.run .host]) .host .faulted .faulted = true := by
  decide
theorem witness_faulted_reset :
    goes (idleIn .faulted [.resetEngine (words [99])]) .host .faulted .running = true ∧
    (HostCall.resetEngine (words [99])).rebuilds .host = true := by decide
/-- The premises of the two entry points, in each status. -/
theorem witness_entry : ∀ st ∈ [Status.running, .suspended, .halted, .faulted],
    ∀ c ∈ [HostCall.run .host, .resume .host],
    let s := idleIn st [c]
    s.activity = .idle ∧ s.calls = [c] ∧
    s.engine? .host = some (stopped [104, 1, 99] 0 st
      (if st = .faulted then some (.outOfRange 3 0 .host) else none)) := by decide
theorem witness_resumed_output : let e := eng [104, 1, 99] 0 true
    (hostState e).activity = .engine .host ∧ Executes (hostState e) .host e ∧
    e.SourceIs .immediate 1 (word 1) ∧ e.fb = true :=
  ⟨rfl, host_executes _ _ _ _, source_immediate _ (by decide), rfl⟩
theorem witness_construct_reset :
    let s c := hostState (eng [1]) .idle [] [c]
    (s (.constructEngine (words [99]) [])).calls = [.constructEngine (words [99]) []] ∧
    (s (.resetEngine (words [99]))).calls = [.resetEngine (words [99])] ∧
    (words [99]).length ≤ Config.maxLength W ∧ (s (.resetEngine (words [99]))).activity = .idle := by
  decide
/-- The inspection reads and the poke at the ends of a storage of three words; in and out of range. -/
theorem witness_inspection : let e := eng [99, 5, 6]
    (∀ c ∈ [HostCall.readAddress .host 2, .readWords .host 0 3, .poke .host 2 7],
      (hostState e .idle [] [c]).activity = .idle ∧ (hostState e .idle [] [c]).calls = [c] ∧
      (hostState e .idle [] [c]).engine? .host = some e) ∧ e.status ≠ .faulted ∧
    e.mem.read 0 = some (word 99) ∧ e.mem.read 2 = some (word 6) ∧
    e.mem.read (-1) = none ∧ e.mem.read 3 = none ∧
    ((0 : Int) ≤ 3 ∧ (0 : Int) ≤ 0 ∧ (0 : Int) + 3 ≤ e.mem.length) ∧
    ((0 : Int) ≤ 0 ∧ (0 : Int) ≤ 3 ∧ (3 : Int) + 0 ≤ e.mem.length) ∧
    ((-1 : Int) < 0 ∧ (e.mem.length : Int) < 2 + 2) := by decide

/-! ### Witnesses: the amplifier -/

/-- A ring of one amplifier over `104, 1, 99` in a status, with a call of it waiting or active. -/
def oneAmp (st : Status) (lastOut : Option (Word W)) : Amplifier W :=
  amp (stopped [104, 1, 99] 0 st (if st = .faulted then some (.outOfRange 3 0 .host) else none))
    [104, 1, 99] (some 5) .phaseDelivered lastOut

theorem witness_amplifier_calls : ∀ st ∈ [Status.running, .suspended, .halted, .faulted],
    ∀ c ∈ [HostCall.amplifierRun 0 9, .amplifierReset 0],
    let s := ringState [oneAmp st (some 1)] .idle false 0 [c]
    s.activity = .idle ∧ s.calls = [c] ∧ s.circuit.amps[0]? = some (oneAmp st (some 1)) := by decide
theorem witness_amplifier_returns : ∀ p ∈ [(Status.faulted, none), (.halted, none), (.suspended, some 1),
      (.halted, some (1 : Word W))],
    let s := ringState [oneAmp p.1 p.2] (.amplifier 0)
    s.activity = .amplifier 0 ∧ s.circuit.amps[0]? = some (oneAmp p.1 p.2) ∧
    (oneAmp p.1 p.2).engine.status ≠ .running ∧
    (p.1 = .faulted → (oneAmp p.1 p.2).engine.fault = some (.outOfRange 3 0 .host)) := by decide

theorem inv_running {P : List Int} {pc : Int} {fb : Bool} (h : (words P).length ≤ Config.maxLength W) :
    (eng P pc fb).Inv := by
  refine ⟨?_, ?_, ?_, ?_, ?_⟩ <;> simp [eng, Memory.wf, h]

theorem inv_reset_engine : (Block.reset (W := W)).host.engine.Inv :=
  ⟨by decide, by decide, nofun, nofun, nofun⟩

theorem inv_reset_calls (cs : List (HostCall W)) : ({ Block.reset with calls := cs } : Block W).Inv :=
  ⟨inv_reset_engine, by simp [Block.reset], trivial⟩

theorem inv_ring {P : List Int} {pending lastOut : Option (Word W)} {inState : InState} {act : Activity}
    {signal : Int} {calls : List (HostCall W)} (h : (words P).length ≤ Config.maxLength W)
    (hf : inState ≠ .finished)
    (ha : (ringState [amp (eng P) P pending inState lastOut] act false signal calls).ActivityInv) :
    (ringState [amp (eng P) P pending inState lastOut] act false signal calls).Inv := by
  refine ⟨inv_reset_engine, fun a ha => ?_, ha⟩
  have : a = amp (eng P) P pending inState lastOut := by simpa [ringState] using ha
  subst this
  exact ⟨inv_running h, rfl, fun h => absurd h hf, nofun⟩

/-- An IN about to execute inside an amplifier's run and inside a circuit run, under the invariant. -/
theorem witness_input_inside :
    (ringState [inAmp (some 5) .phaseDelivered] (.amplifier 0)).Inv ∧
    (ringState [inAmp (some 5) .phaseDelivered] (.circuit 0) false 5).Inv ∧
    Executes (ringState [inAmp (some 5) .phaseDelivered] (.amplifier 0)) (.ring 0) (eng [3, 1]) ∧
    Executes (ringState [inAmp (some 5) .phaseDelivered] (.circuit 0) false 5) (.ring 0) (eng [3, 1]) ∧
    (eng [3, 1]).DestinationIs 1 1 :=
  ⟨inv_ring (by decide) (by decide) ⟨_, rfl, rfl⟩,
   inv_ring (by decide) (by decide) ⟨⟨_, rfl, rfl⟩, by decide⟩,
   ⟨rfl, rfl, rfl⟩, ⟨rfl, rfl, rfl⟩, destination_is (word 1) (by decide) (by decide)⟩

/-! ### Witnesses: the circuit -/

theorem witness_circuit_construction :
    let s c := hostState (eng []) .idle [] [c]
    (s (.constructCircuit (words [99]) [])).activity = .idle ∧
    (s (.constructCircuit (words [99]) [])).calls = [.constructCircuit (words [99]) []] ∧
    (s (.constructCircuit (words [99]) [4, 3])).calls = [.constructCircuit (words [99]) [4, 3]] ∧
    [(4 : Word W), 3] ≠ [] ∧ (words [99]).length ≤ Config.maxLength W := by decide
theorem witness_circuit_run :
    let s := ringState [oneAmp .halted (some 1)] .idle false 0 [.circuitRun 0 true]
    s.activity = .idle ∧ s.calls = [.circuitRun 0 true] ∧ s.circuit.amps ≠ [] := by decide
theorem witness_circuit_carry :
    let a := oneAmp .suspended (some 1)
    let s := ringState [a, a] (.circuit 0) true 5
    s.activity = .circuit 0 ∧ s.circuit.amps[0]? = some a ∧ s.circuit.amps[1]? = some a ∧
    (a.engine.status = .suspended ∨ a.engine.status = .halted) ∧ a.lastOut = some 1 := by decide
/-- The end of a pass in each of its four cases: the other amplifier and the mode. -/
theorem witness_pass_ends : ∀ p ∈ [(Status.halted, Status.halted, false), (.halted, .halted, true),
      (.suspended, .suspended, true), (.halted, .suspended, true)],
    let a := oneAmp p.2.1 (some 1)
    let s := ringState [oneAmp p.1 (some 1), a] (.circuit 1) p.2.2 5
    s.activity = .circuit 1 ∧ s.circuit.amps[1]? = some a ∧ 1 + 1 = s.circuit.amps.length ∧
    (a.engine.status = .suspended ∨ a.engine.status = .halted) ∧ a.lastOut = some 1 ∧
    s.circuit.fbMode = p.2.2 := by decide
theorem witness_pass_cases :
    let ring (p q : Status) := [oneAmp p (some 1), oneAmp q (some 1)]
    (∀ b ∈ ring .halted .halted, b.engine.status = .halted) ∧
    (∀ b ∈ ring .suspended .suspended, b.engine.status ≠ .halted) ∧
    (∃ b ∈ ring .halted .suspended, b.engine.status = .halted) ∧
    (∃ b ∈ ring .halted .suspended, b.engine.status ≠ .halted) := by decide
theorem witness_circuit_faults : ∀ p ∈ [(Status.faulted, FaultRecord.outOfRange 3 0 .host),
      (.halted, .noOutput 0)],
    let s := ringState [oneAmp p.1 none, oneAmp .halted (some 1)] (.circuit 0)
    s.activity = .circuit 0 ∧ s.circuit.amps[0]? = some (oneAmp p.1 none) ∧
    (oneAmp p.1 none).engine.status ≠ .running ∧ (oneAmp p.1 none).result 0 = .error p.2 := by
  simp only [List.mem_cons, List.not_mem_nil, or_false]
  rintro p (rfl | rfl) <;> exact ⟨rfl, rfl, by decide, rfl⟩

/-! ### Witnesses: the invariant -/

/-- The invariant at reset with calls waiting, and a step from there: the first has storage length 1 afterwards, the
second is a call the spec does not give. -/
theorem witness_invariant : let s (cs : List (HostCall W)) : Block W := { Block.reset with calls := cs }
    (s [.constructEngine (words [99]) []]).Inv ∧ (s [.circuitRun 0 true]).Inv ∧
    (∃ (t : Block W) (e' : Engine W), step (.of (s [.constructEngine (words [99]) []])) = .next (.of t) ∧
      t.engine? .host = some e' ∧ e'.mem.length = 1) ∧
    (HostCall.circuitRun 0 true).Impossible (s [.circuitRun 0 true]) := by
  refine ⟨inv_reset_calls _, inv_reset_calls _, ?_, rfl⟩
  obtain ⟨t, ht, h⟩ := of_nextSat
    (o := step (.of { Block.reset with calls := [.constructEngine (words [99]) []] }))
    (p := fun t => t.host.engine.mem.length = 1) (by decide)
  exact ⟨t, _, ht, rfl, by simpa using h⟩
theorem witness_storage_kept : ∃ (t : Block W) (e e' : Engine W),
    (ringState [inAmp (some 5) .phaseDelivered] (.amplifier 0)).Inv ∧
    step (.of (ringState [inAmp (some 5) .phaseDelivered] (.amplifier 0))) = .next (.of t) ∧
    (ringState [inAmp (some 5) .phaseDelivered] (.amplifier 0)).engine? (.ring 0) = some e ∧
    t.engine? (.ring 0) = some e' := by
  obtain ⟨t, e, e', h1, h2, h3, -⟩ := of_goes
    (s := ringState [inAmp (some 5) .phaseDelivered] (.amplifier 0)) (id := .ring 0)
    (b := .running) (a := .running) (by decide)
  exact ⟨t, e, e', witness_input_inside.1, h1, h2, h3⟩

end Sys2Proof.Tests
end

section
/-! PROOFS. Storage access and its bounds check (20_memory.md R43, R44). -/

namespace Sys2Proof.Machine

variable {W : Nat}

/-! ### Access by address -/

theorem Memory.read_eq_getElem? {m : Memory W} {a : Int} (h : m.inRange a) : m.read a = m[a.toNat]? :=
  if_pos h

theorem Memory.not_inRange_of_outside {m : Memory W} {a : Int} (h : a < 0 ∨ (m.length : Int) ≤ a) :
    ¬ m.inRange a := by
  rintro ⟨h0, h1⟩; omega

theorem Engine.memRead_of_read {e : Engine W} {a : Int} {x : Access} {v : Word W}
    (h : e.mem.read a = some v) : e.memRead a x = .ok v := by
  simp [Engine.memRead, h]

theorem Engine.memRead_of_not_inRange {e : Engine W} {a : Int} {x : Access} (h : ¬ e.mem.inRange a) :
    e.memRead a x = .error (.outOfRange a e.pc x) := by
  simp [Engine.memRead, Memory.read_eq_none.2 h]

theorem Engine.memWrite_of_inRange {e : Engine W} {a : Int} {v : Word W} {x : Access}
    (h : e.mem.inRange a) : e.memWrite a v x = .ok (e.store a v) := if_pos h

theorem Engine.memWrite_of_not_inRange {e : Engine W} {a : Int} {v : Word W} {x : Access}
    (h : ¬ e.mem.inRange a) : e.memWrite a v x = .error (.outOfRange a e.pc x) := if_neg h

/-- Settles O8: inside the bounds `MemRead` is `Memory.read`, which is the list's element; outside, it raises. -/
theorem readIsBoundsChecked : Obligations.ReadIsBoundsChecked := by
  refine fun W e a x =>
    ⟨fun h0 h1 => ?_, fun h => Engine.memRead_of_not_inRange (Memory.not_inRange_of_outside h)⟩
  have hr : e.mem.inRange a := ⟨h0, h1⟩
  obtain ⟨v, hv⟩ := Memory.read_of_inRange hr
  exact ⟨v, Memory.read_eq_getElem? hr ▸ hv, Engine.memRead_of_read hv⟩

/-- Settles O9: inside the bounds `MemWrite` is `Engine.store`, so the laws of `Memory.write` apply; outside, it
raises. -/
theorem writeIsBoundsChecked : Obligations.WriteIsBoundsChecked := by
  refine fun W e a v x =>
    ⟨fun h0 h1 => ?_, fun h => Engine.memWrite_of_not_inRange (Memory.not_inRange_of_outside h)⟩
  have hr : e.mem.inRange a := ⟨h0, h1⟩
  exact ⟨e.store a v, Engine.memWrite_of_inRange hr, Memory.read_write_self hr,
    fun b hb => Memory.read_write_other hb, Memory.length_write e.mem a v, rfl⟩

end Sys2Proof.Machine
end

section
/-! PROOFS. Storage is fixed in size (20_memory.md R50). The lengths of all storages are one function of the block,
`Block.storageLengths`. Each operation keeps that function; a step does so because its parts do. -/

namespace Sys2Proof.Machine

variable {W : Nat}

/-- The length of each engine's storage, none where no such engine exists. -/
def Block.storageLengths (s : Block W) (id : EngineId) : Option Nat := (s.engine? id).map (·.mem.length)

theorem Block.length_eq_of_storageLengths {s t : Block W} {id : EngineId} {e e' : Engine W}
    (h : t.storageLengths id = s.storageLengths id) (he : s.engine? id = some e)
    (he' : t.engine? id = some e') : e'.mem.length = e.mem.length := by
  simpa [Block.storageLengths, he, he'] using h

/-! ### What replaces a part of the block -/

theorem Block.storageLengths_congr {s t : Block W} (h : ∀ id, t.engine? id = s.engine? id) :
    t.storageLengths = s.storageLengths := by
  funext id; simp [Block.storageLengths, h]

/-- The lengths depend on the host's engine and the ring alone. -/
theorem Block.storageLengths_congr_units {s t : Block W} (hhost : t.host.engine = s.host.engine)
    (hring : t.circuit.amps = s.circuit.amps) : t.storageLengths = s.storageLengths :=
  Block.storageLengths_congr (Block.engine?_congr hhost hring)

theorem Block.storageLengths_setEngine {s : Block W} {id : EngineId} {e e' : Engine W}
    (he : s.engine? id = some e) (hl : e'.mem.length = e.mem.length) :
    (s.setEngine id e').storageLengths = s.storageLengths := by
  funext id'
  by_cases hi : id' = id
  · subst hi; simp [Block.storageLengths, Block.engine?_setEngine_self he, he, hl]
  · simp [Block.storageLengths, Block.engine?_setEngine_other hi]

theorem Block.storageLengths_mapAmp {s : Block W} {i : Nat} {f : Amplifier W → Amplifier W}
    (hf : ∀ a, s.circuit.amps[i]? = some a → (f a).engine.mem.length = a.engine.mem.length) :
    (s.mapAmp i f).storageLengths = s.storageLengths := by
  funext id
  cases id with
  | host => rfl
  | ring j =>
    by_cases hij : i = j
    · subst hij
      cases ha : s.circuit.amps[i]? with
      | none => simp [Block.storageLengths, Block.engine?, ha]
      | some a => simp [Block.storageLengths, Block.engine?, ha, hf a ha]
    · simp [Block.storageLengths, Block.engine?, hij]

@[simp] theorem Block.storageLengths_answer (s : Block W) (r : Reply W) :
    (s.answer r).storageLengths = s.storageLengths :=
  Block.storageLengths_congr (s.answer_engine? r)

@[simp] theorem Block.storageLengths_consume (s : Block W) (id : EngineId) (v : Word W) :
    (s.consume id v).storageLengths = s.storageLengths :=
  Block.storageLengths_congr (s.consume_engine? id v)

/-- An input request changes no engine. -/
theorem Block.engine?_supply {s s' : Block W} {id : EngineId} {v : Word W} (h : s.supply id = .ok (v, s'))
    (id' : EngineId) : s'.engine? id' = s.engine? id' := by
  obtain ⟨-, v, vs, -, hv⟩ | ⟨-, -, hv⟩ | ⟨i, a, v, a', -, ha, hs, hv⟩ | ⟨i, m, -, -, hv⟩ := s.supply_cases id
  · rw [hv] at h; cases h; exact Block.engine?_congr rfl rfl id'
  · rw [hv] at h; cases h; exact Block.engine?_congr rfl rfl id'
  · rw [hv] at h; cases h
    have hk : a'.engine = a.engine := by simpa using congrArg Amplifier.engine (Amplifier.supply_keeps hs).1
    cases id' with
    | host => rfl
    | ring j =>
      by_cases hij : i = j
      · subst hij; simp [Block.engine?, ha, hk]
      · simp [Block.engine?, hij]
  · rw [hv] at h; cases h

/-! ### A cycle -/

/-- No instruction changes the length of a storage. -/
theorem exec_storageLengths {s t : Block W} {id : EngineId} {e : Engine W} {i : Instr} (h : Executes s id e)
    (hx : exec i (.of s) = .next (.of t)) : t.storageLengths = s.storageLengths := by
  have ⟨_, he, _⟩ := h
  obtain ⟨r, rfl, -⟩ | ⟨-, -, d, v, -, -, rfl⟩ | ⟨-, -, p, -, rfl⟩ | ⟨-, rfl⟩ |
    ⟨-, d, v, s', -, hs, rfl⟩ | ⟨m, v, -, -, rfl⟩ := exec_cases h hx
  · exact Block.storageLengths_setEngine he rfl
  · exact Block.storageLengths_setEngine he (by simp)
  · exact Block.storageLengths_setEngine he rfl
  · exact Block.storageLengths_setEngine he rfl
  · have hk := Block.engine?_supply hs
    rw [Block.storageLengths_setEngine ((hk _).trans he) (by simp), Block.storageLengths_congr hk]
  · rw [Block.storageLengths_setEngine ((s.consume_engine? _ v _).trans he) (by split <;> rfl),
      Block.storageLengths_consume]

theorem step_storageLengths_of_executes {s t : Block W} {id : EngineId} {e : Engine W} (h : Executes s id e)
    (hx : step (.of s) = .next (.of t)) : t.storageLengths = s.storageLengths := by
  obtain ⟨w, i, -, -, hi⟩ | ⟨r, rfl, -⟩ := step_cycle_cases h hx
  · exact exec_storageLengths h hi
  · obtain ⟨-, he, -⟩ := h
    exact Block.storageLengths_setEngine he rfl

/-! ### The return of a call -/

@[simp] theorem Amplifier.begin_mem (a : Amplifier W) (x : Word W) : (a.begin x).engine.mem = a.engine.mem := by
  simp only [Amplifier.begin]; split <;> rfl

@[simp] theorem Amplifier.settle_engine (a : Amplifier W) : a.settle.engine = a.engine := rfl

@[simp] theorem Block.storageLengths_callAmp (s : Block W) (i : Nat) :
    (s.callAmp i).storageLengths = s.storageLengths := by
  calc (s.callAmp i).storageLengths
      = (s.mapAmp i fun a => a.begin s.circuit.signal).storageLengths :=
        Block.storageLengths_congr_units rfl rfl
    _ = s.storageLengths := Block.storageLengths_mapAmp fun a _ => by simp

@[simp] theorem Block.storageLengths_endPass (s : Block W) : s.endPass.storageLengths = s.storageLengths := by
  unfold Block.endPass
  dsimp only
  split_ifs <;> simp

@[simp] theorem Block.storageLengths_afterAmp (s : Block W) (i : Nat)
    (x : Except (FaultRecord W) (Word W)) : (s.afterAmp i x).storageLengths = s.storageLengths := by
  cases x with
  | error r => simp [Block.afterAmp]
  | ok v =>
    have hs : ({ s with circuit := { s.circuit with signal := v } } : Block W).storageLengths =
        s.storageLengths := Block.storageLengths_congr_units rfl rfl
    simp only [Block.afterAmp]
    split <;> simp [hs]

theorem Block.storageLengths_settle {s : Block W} {i : Nat} {a : Amplifier W} (ha : s.circuit.amps[i]? = some a) :
    (s.mapAmp i fun _ => a.settle).storageLengths = s.storageLengths :=
  Block.storageLengths_mapAmp fun b hb => by cases ha.symm.trans hb; rfl

theorem Block.returnStep_storageLengths {s t : Block W} (h : s.returnStep = .next (.of t)) :
    t.storageLengths = s.storageLengths := by
  unfold Block.returnStep at h
  split at h
  · cases h
  · split at h <;> cases h; simp
  · split at h
    · cases h
    · rename_i ha; cases h; simp [Block.storageLengths_settle ha]
  · split at h
    · cases h
    · rename_i ha; cases h; simp [Block.storageLengths_settle ha]

/-! ### A call of the host -/

/-- The host calls that give engine `id` a new storage from a program image, which may have another length. -/
def HostCall.ReplacesStorage (c : HostCall W) (id : EngineId) : Prop :=
  (id = .host ∧ ((∃ P ins, c = .constructEngine P ins) ∨ ∃ P, c = .resetEngine P)) ∨
  (id ≠ .host ∧ ((∃ P ph, c = .constructAmplifier P ph) ∨ ∃ P phs, c = .constructCircuit P phs))

section Calls
variable {s t : Block W} {id : EngineId}

theorem Block.hostFault_storageLengths {e : Engine W} {r : FaultRecord W} (he : s.engine? id = some e)
    (h : s.hostFault id e r = .next (.of t)) : t.storageLengths = s.storageLengths := by
  cases h
  simp [Block.storageLengths_setEngine he]

theorem Block.setFeedback_storageLengths {b : Bool} (h : s.setFeedback id b = .next (.of t)) :
    t.storageLengths = s.storageLengths := by
  obtain ⟨e, he, h⟩ := Block.withEngine_next h
  cases h
  simp [Block.storageLengths_setEngine he]

theorem Block.run_storageLengths (h : s.run id = .next (.of t)) : t.storageLengths = s.storageLengths := by
  obtain ⟨e, he, h⟩ := Block.withEngine_next h
  split at h
  · cases h; exact Block.storageLengths_congr_units rfl rfl
  · cases h; simp
  · cases h; simp
  · exact Block.hostFault_storageLengths he h

theorem Block.resume_storageLengths (h : s.resume id = .next (.of t)) :
    t.storageLengths = s.storageLengths := by
  obtain ⟨e, he, h⟩ := Block.withEngine_next h
  split at h
  · cases h; simp
  · cases h
    calc _ = (s.setEngine id e.wake).storageLengths :=
          Block.storageLengths_congr_units rfl rfl
      _ = _ := Block.storageLengths_setEngine he rfl
  · exact Block.hostFault_storageLengths he h
  · exact Block.hostFault_storageLengths he h

theorem Block.readAddress_storageLengths {a : Int} (h : s.readAddress id a = .next (.of t)) :
    t.storageLengths = s.storageLengths := by
  obtain ⟨e, he, h⟩ := Block.withEngine_next h
  split at h
  · cases h; simp
  · exact Block.hostFault_storageLengths he h

theorem Block.readWords_storageLengths {a n : Int} (h : s.readWords id a n = .next (.of t)) :
    t.storageLengths = s.storageLengths := by
  obtain ⟨e, he, h⟩ := Block.withEngine_next h
  split at h
  · exact Block.hostFault_storageLengths he h
  · cases h; simp

theorem Block.poke_storageLengths {a : Int} {v : Word W} (h : s.poke id a v = .next (.of t)) :
    t.storageLengths = s.storageLengths := by
  obtain ⟨e, he, h⟩ := Block.withEngine_next h
  split at h
  · rename_i hw
    obtain ⟨-, rfl⟩ := Engine.memWrite_ok hw
    cases h
    simp [Block.storageLengths_setEngine he]
  · exact Block.hostFault_storageLengths he h

theorem Block.engineStatus_storageLengths (h : s.engineStatus id = .next (.of t)) :
    t.storageLengths = s.storageLengths := by
  obtain ⟨e, -, h⟩ := Block.withEngine_next h
  cases h; simp

theorem Block.amplifierRun_storageLengths {i : Nat} {x : Word W} (h : s.amplifierRun i x = .next (.of t)) :
    t.storageLengths = s.storageLengths := by
  obtain ⟨a, ha, h⟩ := Block.withAmp_next h
  cases h
  calc _ = (s.mapAmp i fun _ => a.begin x).storageLengths :=
        Block.storageLengths_congr_units rfl rfl
    _ = _ := Block.storageLengths_mapAmp fun b hb => by cases ha.symm.trans hb; simp

theorem Block.amplifierStatus_storageLengths {i : Nat} (h : s.amplifierStatus i = .next (.of t)) :
    t.storageLengths = s.storageLengths := by
  obtain ⟨a, -, h⟩ := Block.withAmp_next h
  cases h; simp

/-- A construction or `reset(P)` of the host's engine leaves the ring alone. -/
theorem Block.constructEngine_storageLengths {P ins : List (Word W)} (hid : id ≠ .host)
    (h : s.constructEngine P ins = .next (.of t)) : t.storageLengths id = s.storageLengths id := by
  unfold Block.constructEngine at h
  split at h <;> cases h
  cases id with
  | host => exact absurd rfl hid
  | ring i => rfl

theorem Block.resetEngine_storageLengths {P : List (Word W)} (hid : id ≠ .host)
    (h : s.resetEngine P = .next (.of t)) : t.storageLengths id = s.storageLengths id := by
  unfold Block.resetEngine at h
  split at h <;> cases h
  simp [Block.storageLengths, Block.engine?_setEngine_other hid]

/-- A construction of the ring leaves the host's engine alone. -/
theorem Block.constructCircuit_storageLengths {P phases : List (Word W)}
    (h : s.constructCircuit P phases = .next (.of t)) :
    t.storageLengths .host = s.storageLengths .host := by
  unfold Block.constructCircuit at h
  split_ifs at h <;> cases h <;> rfl

/-! The two resets of an amplifier copy its image, which has the storage's length by the invariant. -/

theorem Amplifier.Inv.reset_length {a : Amplifier W} (h : a.Inv) :
    a.reset.engine.mem.length = a.engine.mem.length := by
  obtain ⟨-, himage, -⟩ := h
  exact himage.symm

theorem Block.amplifierReset_storageLengths {i : Nat} (hinv : ∀ a ∈ s.circuit.amps, a.Inv)
    (h : s.amplifierReset i = .next (.of t)) : t.storageLengths = s.storageLengths := by
  obtain ⟨a, ha, h⟩ := Block.withAmp_next h
  cases h
  rw [Block.storageLengths_answer]
  refine Block.storageLengths_mapAmp fun b hb => ?_
  cases ha.symm.trans hb
  exact (hinv a (List.mem_of_getElem? ha)).reset_length

theorem Block.start_storageLengths {seed : Word W} {fbMode : Bool} (hinv : ∀ a ∈ s.circuit.amps, a.Inv) :
    ({ s with circuit := s.circuit.start seed fbMode } : Block W).storageLengths = s.storageLengths := by
  funext id
  cases id with
  | host => rfl
  | ring i =>
    cases ha : s.circuit.amps[i]? with
    | none => simp [Block.storageLengths, Block.engine?, Circuit.start, ha]
    | some a =>
      have hl := (hinv a (List.mem_of_getElem? ha)).reset_length
      simp [Block.storageLengths, Block.engine?, Circuit.start, ha, hl]

theorem Block.circuitRun_storageLengths {seed : Word W} {fbMode : Bool} (hinv : ∀ a ∈ s.circuit.amps, a.Inv)
    (h : s.circuitRun seed fbMode = .next (.of t)) : t.storageLengths = s.storageLengths := by
  unfold Block.circuitRun at h
  split at h <;> cases h
  rw [Block.storageLengths_callAmp, Block.start_storageLengths hinv]

/-- A host call keeps the length of an engine's storage unless it replaces that storage. -/
theorem Block.serve_storageLengths {c : HostCall W} (hinv : ∀ a ∈ s.circuit.amps, a.Inv)
    (hc : ¬ c.ReplacesStorage id) (h : s.serve c = .next (.of t)) :
    t.storageLengths id = s.storageLengths id := by
  cases c with
  | constructEngine P ins =>
    exact Block.constructEngine_storageLengths (fun hid => hc (.inl ⟨hid, .inl ⟨P, ins, rfl⟩⟩)) h
  | resetEngine P => exact Block.resetEngine_storageLengths (fun hid => hc (.inl ⟨hid, .inr ⟨P, rfl⟩⟩)) h
  | constructAmplifier P ph =>
    obtain rfl : id = .host := by_contra fun hid => hc (.inr ⟨hid, .inl ⟨P, ph, rfl⟩⟩)
    exact Block.constructCircuit_storageLengths h
  | constructCircuit P phs =>
    obtain rfl : id = .host := by_contra fun hid => hc (.inr ⟨hid, .inr ⟨P, phs, rfl⟩⟩)
    exact Block.constructCircuit_storageLengths h
  | setFeedback id' b => rw [Block.setFeedback_storageLengths h]
  | run id' => rw [Block.run_storageLengths h]
  | resume id' => rw [Block.resume_storageLengths h]
  | readAddress id' a => rw [Block.readAddress_storageLengths h]
  | readWords id' a n => rw [Block.readWords_storageLengths h]
  | poke id' a v => rw [Block.poke_storageLengths h]
  | engineStatus id' => rw [Block.engineStatus_storageLengths h]
  | amplifierRun i x => rw [Block.amplifierRun_storageLengths h]
  | amplifierReset i => rw [Block.amplifierReset_storageLengths hinv h]
  | amplifierStatus i => rw [Block.amplifierStatus_storageLengths h]
  | circuitRun seed fbMode => rw [Block.circuitRun_storageLengths hinv h]

/-! ### A step -/

theorem Activity.engineId_eq_none {a : Activity} : a.engineId = none ↔ a = .idle := by
  cases a <;> simp [Activity.engineId]

/-- Where no engine executes, a step changes a storage's length only by serving a call that replaces that storage. -/
theorem step_storageLengths_of_not_executes (hinv : ∀ a ∈ s.circuit.amps, a.Inv)
    (hn : ¬ ∃ id e, Executes s id e) (h : step (.of s) = .next (.of t)) :
    t.storageLengths id = s.storageLengths id ∨
      (s.activity = .idle ∧ ∃ c, s.calls.head? = some c ∧ c.ReplacesStorage id) := by
  rw [step_of_not_executes hn] at h
  split at h
  · rename_i ha
    unfold Block.hostStep at h
    split at h
    · cases h; exact .inl rfl
    · rename_i c cs hcs
      by_cases hc : c.ReplacesStorage id
      · exact .inr ⟨Activity.engineId_eq_none.1 ha, c, by simp [hcs], hc⟩
      · have hl := Block.serve_storageLengths (s := { s with calls := cs, reply := none }) hinv hc h
        exact .inl (hl.trans (congrFun (Block.storageLengths_congr_units rfl rfl) id))
  · split at h
    · cases h
    · exact .inl (congrFun (Block.returnStep_storageLengths h) id)

end Calls

/-- Settles O10: a cycle and the return of a call keep every storage's length, and so does a host call but for the
storage it replaces. -/
theorem storageNeverGrowsOrShrinks : Obligations.StorageNeverGrowsOrShrinks := by
  intro W s t id e e' hinv hstep he he'
  obtain ⟨-, hamps, -⟩ := hinv
  by_cases hx : ∃ id e, Executes s id e
  · obtain ⟨id', e0, hex⟩ := hx
    have hl := congrFun (step_storageLengths_of_executes hex hstep) id
    exact .inl (Block.length_eq_of_storageLengths hl he he')
  · obtain hl | ⟨hidle, c, hc, hrep⟩ := step_storageLengths_of_not_executes (id := id) hamps hx hstep
    · exact .inl (Block.length_eq_of_storageLengths hl he he')
    · rw [hc]
      obtain ⟨hid, hcall⟩ | ⟨hid, hcall⟩ := hrep
      · exact .inr (.inl ⟨hidle, hid, by simpa using hcall⟩)
      · exact .inr (.inr ⟨hidle, hid, by simpa using hcall⟩)

end Sys2Proof.Machine
end

section
/-! PROOFS. The cycle of an executing engine (40_engine_cycle.md R83, R84): what the fetch answers, and the step that
follows from its answer. -/

namespace Sys2Proof.Machine

variable {W : Nat}

/-! ### The fetch -/

section Fetch
variable {e : Engine W} {w : Word W}

theorem Engine.fetch_of_decode_ok {i : Instr} (hw : e.mem.read e.pc = some w) (hd : decode w = .ok i) :
    e.fetch = .ok i := by
  simp [Engine.fetch, Engine.memRead_of_read hw, hd]

theorem Engine.fetch_of_decode_unknown {x : Int} (hw : e.mem.read e.pc = some w)
    (hd : decode w = .error (.unknown x)) : e.fetch = .error (.unsupportedOpcode x w e.pc) := by
  simp [Engine.fetch, Engine.memRead_of_read hw, hd]

theorem Engine.fetch_of_read_none (hn : e.mem.read e.pc = none) :
    e.fetch = .error (.outOfRange e.pc e.pc .fetch) := by
  simp [Engine.fetch, Engine.memRead_of_not_inRange (Memory.read_eq_none.1 hn)]

end Fetch

/-! ### The step after the fetch -/

section Cycle
variable {s : Block W} {id : EngineId} {e : Engine W}

theorem step_of_fetch_ok {i : Instr} (h : Executes s id e) (hf : e.fetch = .ok i) :
    step (.of s) = exec i (.of s) := by
  rw [step_of_executes h, hf]

/-- A fetch that raises is the entry to Faulted, and nothing else (60_exceptions.md R155). -/
theorem step_of_fetch_error {r : FaultRecord W} (h : Executes s id e) (hf : e.fetch = .error r) :
    step (.of s) = .next (.of (s.setEngine id { e with status := .faulted, fault := some r })) := by
  rw [step_of_executes h, hf, ← Block.raise_of_executes h r]

end Cycle

/-- Settles O28: the three answers of the fetch, each with its step. -/
theorem stepRunsTheDecodedInstruction : Obligations.StepRunsTheDecodedInstruction := by
  intro W s id e hex
  refine ⟨fun w i hw hd => ?_, fun w x hw hd => ?_, fun hn => ?_⟩
  · exact step_of_fetch_ok hex (Engine.fetch_of_decode_ok hw hd)
  · exact step_of_fetch_error hex (Engine.fetch_of_decode_unknown hw hd)
  · exact step_of_fetch_error hex (Engine.fetch_of_read_none hn)

end Sys2Proof.Machine
end

section
/-! PROOFS. The return of an amplifier's run to the circuit (46_feedback_circuit.md R133, R137). -/

namespace Sys2Proof.Machine

variable {W : Nat} {s : Block W} {i : Nat} {a : Amplifier W}

/-- Where the active circuit run's amplifier has ended its engine call, the step settles that amplifier and hands its
result to the circuit. -/
theorem step_of_circuit_return (hact : s.activity = .circuit i) (ha : s.circuit.amps[i]? = some a)
    (hrun : a.engine.status ≠ .running) :
    step (.of s) = .next (.of ((s.putAmp i a.settle).afterAmp i (a.result i))) := by
  have hid : s.activity.engineId = some (.ring i) := by rw [hact]; rfl
  have he : s.engine? (.ring i) = some a.engine := by simp [Block.engine?, ha]
  calc step (.of s)
      = s.returnStep := by simp [step, hid, he, hrun]
    _ = .next (.of ((s.mapAmp i fun _ => a.settle).afterAmp i (a.result i))) := by
        simp [Block.returnStep, hact, ha]
    _ = .next (.of ((s.putAmp i a.settle).afterAmp i (a.result i))) := by rw [Block.mapAmp_eq_putAmp ha]

theorem Block.afterAmp_error (s : Block W) (i : Nat) (r : FaultRecord W) :
    s.afterAmp i (.error r) = s.answer (.fault r) := rfl

/-- Settles O53: the circuit answers the host with the amplifier's fault, and only that amplifier is settled. -/
theorem amplifierFaultEndsTheCircuitRun : Obligations.AmplifierFaultEndsTheCircuitRun := by
  intro W s i a r hact ha hrun hres
  rw [step_of_circuit_return hact ha hrun, hres, Block.afterAmp_error]
  rfl

end Sys2Proof.Machine
end

section
/-! PROOFS. The decoder and the encoder (30_encoding.md R61 to R74): what the low decimal digits of a number select, and
that the opcode number of an instruction has just the digits the decoder consults. -/

namespace Sys2Proof

variable {W : Nat}

/-! ### The rows of the opcode table -/

section Rows
variable {n : Nat}

theorem decodeDigits_add (h : n % 100 = 1) :
    decodeDigits n = some (.add (modeOf (digit 2 n)) (modeOf (digit 3 n))) := by simp [decodeDigits, h]
theorem decodeDigits_mul (h : n % 100 = 2) :
    decodeDigits n = some (.mul (modeOf (digit 2 n)) (modeOf (digit 3 n))) := by simp [decodeDigits, h]
theorem decodeDigits_inp (h : n % 100 = 3) : decodeDigits n = some .inp := by simp [decodeDigits, h]
theorem decodeDigits_out (h : n % 100 = 4) : decodeDigits n = some (.out (modeOf (digit 2 n))) := by
  simp [decodeDigits, h]
theorem decodeDigits_jt (h : n % 100 = 5) :
    decodeDigits n = some (.jt (modeOf (digit 2 n)) (modeOf (digit 3 n))) := by simp [decodeDigits, h]
theorem decodeDigits_jf (h : n % 100 = 6) :
    decodeDigits n = some (.jf (modeOf (digit 2 n)) (modeOf (digit 3 n))) := by simp [decodeDigits, h]
theorem decodeDigits_lt (h : n % 100 = 7) :
    decodeDigits n = some (.lt (modeOf (digit 2 n)) (modeOf (digit 3 n))) := by simp [decodeDigits, h]
theorem decodeDigits_eq (h : n % 100 = 8) :
    decodeDigits n = some (.eq (modeOf (digit 2 n)) (modeOf (digit 3 n))) := by simp [decodeDigits, h]
theorem decodeDigits_hlt (h : n % 100 = 99) : decodeDigits n = some .hlt := by simp [decodeDigits, h]

/-- Every other value of the low two digits is no opcode. -/
theorem decodeDigits_none (h : n % 100 = 0 ∨ 9 ≤ n % 100 ∧ n % 100 ≤ 98) : decodeDigits n = none := by
  rw [Option.eq_none_iff_forall_ne_some]
  intro i hd
  unfold decodeDigits at hd
  split at hd <;> cases hd <;> omega

/-- Two numbers with the same low four digits select the same instruction. -/
theorem decodeDigits_congr {m : Nat} (h : m % 100 = n % 100) (h2 : digit 2 m = digit 2 n)
    (h3 : digit 3 m = digit 3 n) : decodeDigits m = decodeDigits n := by
  simp only [decodeDigits, h, h2, h3]

end Rows

/-! ### The decoder's answers -/

section Decode
variable {w : Word W}

theorem decode_of_neg (h : w.toInt < 0) : decode w = .error (.unknown w.toInt) := if_pos h

theorem decode_of_some {i : Instr} (h : 0 ≤ w.toInt) (hd : decodeDigits w.toNat = some i) : decode w = .ok i := by
  simp [decode, not_lt.2 h, hd]

theorem decode_of_none (h : 0 ≤ w.toInt) (hd : decodeDigits w.toNat = none) :
    decode w = .error (.unknown (w.toNat % 100 : Nat)) := by
  simp [decode, not_lt.2 h, hd]

theorem decode_eq_ok {i : Instr} (h : decode w = .ok i) : 0 ≤ w.toInt ∧ decodeDigits w.toNat = some i := by
  obtain h0 | h0 := lt_or_ge w.toInt 0
  · rw [decode_of_neg h0] at h; cases h
  · cases hd : decodeDigits w.toNat with
    | none => rw [decode_of_none h0 hd] at h; cases h
    | some j => rw [decode_of_some h0 hd] at h; cases h; exact ⟨h0, rfl⟩

end Decode

/-! ### Decoding what was encoded -/

theorem digit_two_opcode {a b op : Nat} (ha : a < 10) (hop : op < 100) :
    digit 2 (b * 1000 + a * 100 + op) = a := by
  simp only [digit]; omega

theorem digit_three_opcode {a b op : Nat} (ha : a < 10) (hb : b < 10) (hop : op < 100) :
    digit 3 (b * 1000 + a * 100 + op) = b := by
  simp only [digit]; omega

/-- The two mode digits of a two-source instruction's opcode number give back its modes. -/
theorem modes_of_opcodeNumber {m1 m2 : Mode} {op : Nat} (hop : op < 100) (h : (m1.wf && m2.wf) = true) :
    modeOf (digit 2 (m2.digit * 1000 + m1.digit * 100 + op)) = m1 ∧
      modeOf (digit 3 (m2.digit * 1000 + m1.digit * 100 + op)) = m2 := by
  simp only [Bool.and_eq_true] at h
  obtain ⟨h1, h2⟩ := h
  rw [digit_two_opcode (Mode.digit_lt h1) hop, digit_three_opcode (Mode.digit_lt h1) (Mode.digit_lt h2) hop]
  exact ⟨modeOf_digit h1, modeOf_digit h2⟩

theorem decodeDigits_opcodeNumber {i : Instr} (h : i.wf = true) : decodeDigits i.opcodeNumber = some i := by
  cases i with
  | add m1 m2 =>
    obtain ⟨h1, h2⟩ := modes_of_opcodeNumber (op := 1) (by decide) h
    rw [decodeDigits_add (Laws.OpcodeNumber.add m1 m2 h).1, Instr.opcodeNumber, h1, h2]
  | mul m1 m2 =>
    obtain ⟨h1, h2⟩ := modes_of_opcodeNumber (op := 2) (by decide) h
    rw [decodeDigits_mul (Laws.OpcodeNumber.mul m1 m2 h).1, Instr.opcodeNumber, h1, h2]
  | inp => rfl
  | out m =>
    have h1 : digit 2 (m.digit * 100 + 4) = m.digit := by
      simpa using digit_two_opcode (b := 0) (op := 4) (Mode.digit_lt h) (by decide)
    rw [decodeDigits_out (Laws.OpcodeNumber.out m h).1, Instr.opcodeNumber, h1, modeOf_digit h]
  | jt m1 m2 =>
    obtain ⟨h1, h2⟩ := modes_of_opcodeNumber (op := 5) (by decide) h
    rw [decodeDigits_jt (Laws.OpcodeNumber.jt m1 m2 h).1, Instr.opcodeNumber, h1, h2]
  | jf m1 m2 =>
    obtain ⟨h1, h2⟩ := modes_of_opcodeNumber (op := 6) (by decide) h
    rw [decodeDigits_jf (Laws.OpcodeNumber.jf m1 m2 h).1, Instr.opcodeNumber, h1, h2]
  | lt m1 m2 =>
    obtain ⟨h1, h2⟩ := modes_of_opcodeNumber (op := 7) (by decide) h
    rw [decodeDigits_lt (Laws.OpcodeNumber.lt m1 m2 h).1, Instr.opcodeNumber, h1, h2]
  | eq m1 m2 =>
    obtain ⟨h1, h2⟩ := modes_of_opcodeNumber (op := 8) (by decide) h
    rw [decodeDigits_eq (Laws.OpcodeNumber.eq m1 m2 h).1, Instr.opcodeNumber, h1, h2]
  | hlt => rfl

theorem decode_opcodeWord {i : Instr} (h : i.wf = true) (hw : i.opcodeNumber < 2 ^ (W - 1)) :
    decode (opcodeWord i : Word W) = .ok i := by
  rw [opcodeWord, decode_ofNat hw, decodeDigits_opcodeNumber h]

/-- A first word that decodes to `i`, and as many words after it as `i` has parameters, read off as `i`. -/
theorem disassemble_of_decode {w : Word W} {i : Instr} {params rest : List (Word W)} (hd : decode w = .ok i)
    (hp : params.length = i.arity) : disassemble (w :: params ++ rest) = some (i, params, rest) := by
  simp [disassemble, hd, ← hp]

/-- Settles O1: the opcode number has the digits its decoding consults, and a number that fits is the value of its
word. -/
theorem decodeOfEncodeIsTheInstruction : Obligations.DecodeOfEncodeIsTheInstruction := by
  intro W i params rest hwf hfits hlen
  have hd : decode (opcodeWord i : Word W) = .ok i := decode_opcodeWord hwf hfits
  exact ⟨hd, disassemble_of_decode hd hlen⟩

/-! ### Encoding what was decoded -/

theorem modeOf_digit_eq (d : Nat) : (modeOf d).digit = d := by
  match d with
  | 0 => rfl
  | 1 => rfl
  | d + 2 => rfl

/-- The modulus that keeps the digits of an opcode word that its instruction consults (30_encoding.md R67, R69). -/
def Instr.consulted : Instr → Nat
  | .add _ _ | .mul _ _ | .jt _ _ | .jf _ _ | .lt _ _ | .eq _ _ => 10000
  | .out _ => 1000
  | .inp | .hlt => 100

/-- The opcode number of a number's instruction is that number with only its consulted digits kept. -/
theorem opcodeNumber_of_decodeDigits {n : Nat} {i : Instr} (h : decodeDigits n = some i) :
    i.opcodeNumber = n % i.consulted := by
  unfold decodeDigits at h
  split at h <;> cases h <;> simp only [Instr.opcodeNumber, Instr.consulted, modeOf_digit_eq, digit] <;> omega

/-- Settles O2: the opcode number of what a word decodes to is not above the word's value, so it fits the width. -/
theorem encodedWordKeepsTheConsultedDigits : Obligations.EncodedWordKeepsTheConsultedDigits := by
  intro W w i h
  obtain ⟨h0, hd⟩ := decode_eq_ok h
  have hn : i.opcodeNumber = w.toNat % i.consulted := opcodeNumber_of_decodeDigits hd
  have hlt : i.opcodeNumber < 2 ^ W := by
    calc i.opcodeNumber = w.toNat % i.consulted := hn
      _ ≤ w.toNat := Nat.mod_le _ _
      _ < 2 ^ W := w.isLt
  have ht : (opcodeWord i : Word W).toNat = w.toNat % i.consulted := by
    rw [opcodeWord, BitVec.toNat_ofNat, Nat.mod_eq_of_lt hlt, hn]
  exact ⟨Machine.wf_of_decode h, h0, by cases i <;> exact ht⟩

/-! ### The decoder's table -/

/-- Settles O3: the row of each opcode value. -/
theorem decodeFollowsTheOpcodeTable : Obligations.DecodeFollowsTheOpcodeTable := by
  refine fun W w => ⟨decode_of_neg, fun h0 => ⟨?_, ?_, ?_, ?_, ?_, ?_, ?_, ?_, ?_, ?_⟩⟩
  · exact fun h => decode_of_some h0 (decodeDigits_add h)
  · exact fun h => decode_of_some h0 (decodeDigits_mul h)
  · exact fun h => decode_of_some h0 (decodeDigits_inp h)
  · exact fun h => decode_of_some h0 (decodeDigits_out h)
  · exact fun h => decode_of_some h0 (decodeDigits_jt h)
  · exact fun h => decode_of_some h0 (decodeDigits_jf h)
  · exact fun h => decode_of_some h0 (decodeDigits_lt h)
  · exact fun h => decode_of_some h0 (decodeDigits_eq h)
  · exact fun h => decode_of_some h0 (decodeDigits_hlt h)
  · exact fun h => decode_of_none h0 (decodeDigits_none h)

/-- The decoder reads a non-negative word through `decodeDigits` and the low two digits alone. -/
theorem decode_congr {v w : Word W} (hv : 0 ≤ v.toInt) (hw : 0 ≤ w.toInt) (h : v.toNat % 100 = w.toNat % 100)
    (hd : decodeDigits v.toNat = decodeDigits w.toNat) : decode v = decode w := by
  cases hs : decodeDigits v.toNat with
  | some i => rw [decode_of_some hv hs, decode_of_some hw (hd ▸ hs)]
  | none => rw [decode_of_none hv hs, decode_of_none hw (hd ▸ hs), h]

/-- Settles O4: words whose rows read the same digits select the same instruction. -/
theorem unconsultedDigitsAreIgnored : Obligations.UnconsultedDigitsAreIgnored := by
  refine fun W v w hv hw h => ⟨fun hop => ?_, fun hop h2 => ?_, fun h2 h3 => ?_⟩ <;> apply decode_congr hv hw h
  · obtain hop | hop := hop
    · rw [decodeDigits_inp hop, decodeDigits_inp (h ▸ hop)]
    · rw [decodeDigits_hlt hop, decodeDigits_hlt (h ▸ hop)]
  · rw [decodeDigits_out hop, decodeDigits_out (h ▸ hop), h2]
  · exact decodeDigits_congr h h2 h3

/-- Settles O5: each word is the `BitVec.ofNat` of its number, which fits 12 bits; -1 is negative. -/
theorem writtenWordsDecode : Obligations.WrittenWordsDecode := by
  intro W hW
  have hpow : 2 ^ 11 ≤ 2 ^ (W - 1) := Nat.pow_le_pow_right (by decide) (by omega)
  have hdec (n : Nat) (i : Instr) (hn : n < 2 ^ 11) (hd : decodeDigits n = some i) :
      decode (wrap n : Word W) = .ok i := by
    rw [wrap_natCast, decode_ofNat (by omega), hd]
  have hneg : (wrap (-1) : Word W).toInt = -1 :=
    BitVec.toInt_ofInt_eq_self (by omega) (by have := Nat.two_pow_pos (W - 1); norm_cast; omega)
      (by have := Nat.two_pow_pos (W - 1); norm_cast; omega)
  refine ⟨hdec 3 _ (by decide) rfl, hdec 8 _ (by decide) rfl, hdec 1108 _ (by decide) rfl,
    hdec 1006 _ (by decide) rfl, hdec 1 _ (by decide) rfl, hdec 1002 _ (by decide) rfl,
    hdec 4 _ (by decide) rfl, hdec 99 _ (by decide) rfl, ?_⟩
  rw [decode_of_neg (by omega), hneg]

end Sys2Proof
end

section
/-! PROOFS. The assembler (30_encoding.md R74, R76, R77): the words of a line are its instruction's opcode word and one
word per parameter. -/

namespace Sys2Proof.Machine

variable {W : Nat}

/-! ### Numbers as words -/

theorem wordOf_eq_ok {v : Int} {w : Word W} (h : wordOf v = .ok w) : w = wrap v ∧ w.toInt = v := by
  unfold wordOf at h
  split at h <;> cases h
  exact ⟨rfl, by assumption⟩

/-- A word's own value stands for that word. -/
@[simp] theorem wordOf_toInt (x : Word W) : wordOf x.toInt = .ok x := by simp [wordOf]

/-- A number that fits 12 bits is a word of every width from 12 bits on. -/
theorem wordOf_of_fits {v : Int} (hW : 12 ≤ W) (h0 : -2048 ≤ v) (h1 : v < 2048) :
    wordOf v = .ok (wrap v : Word W) := by
  have hpow : (2 : Int) ^ 11 ≤ 2 ^ (W - 1) := pow_le_pow_right₀ (by decide) (by omega)
  have ht : (wrap v : Word W).toInt = v := BitVec.toInt_ofInt_eq_self (by omega) (by omega) (by omega)
  rw [wordOf, if_pos ht]

theorem numWords_cons_eq_ok {labels : List (String × Nat)} {n : AsmNum} {ns : List AsmNum} {ws : List (Word W)}
    (h : numWords labels (n :: ns) = .ok ws) :
    ∃ w ps, numWord labels n = .ok w ∧ numWords labels ns = .ok ps ∧ ws = w :: ps := by
  rw [numWords] at h
  split at h
  · cases h
  · rename_i w hw
    split at h
    · cases h
    · rename_i ps hps
      cases h
      exact ⟨w, ps, hw, hps, rfl⟩

theorem length_of_numWords {labels : List (String × Nat)} {ns : List AsmNum} {ws : List (Word W)}
    (h : numWords labels ns = .ok ws) : ws.length = ns.length := by
  induction ns generalizing ws with
  | nil => cases h; rfl
  | cons n ns ih =>
    obtain ⟨w, ps, -, hps, rfl⟩ := numWords_cons_eq_ok h
    simp [ih hps]

/-! ### The instruction of a line -/

@[simp] theorem srcMode_wf (s : AsmSrc) : (srcMode s).wf = true := by cases s <;> rfl

/-- A line's instruction is well-formed and has one number per parameter. -/
theorem lineInstr_wf {l : AsmLine} {i : Instr} {ns : List AsmNum} (h : lineInstr l = some (i, ns)) :
    i.wf = true ∧ ns.length = i.arity := by
  cases l <;> cases h <;> simp [Instr.wf, Instr.arity]

theorem lineWords_of_lineInstr {labels : List (String × Nat)} {l : AsmLine} {i : Instr} {ns : List AsmNum}
    (h : lineInstr (expandLine l) = some (i, ns)) :
    lineWords (W := W) labels l = numWords labels (.lit i.opcodeNumber :: ns) := by
  simp [lineWords, h]

/-- Settles O7: the first word has the opcode number as its value, so it is the instruction's opcode word, and the
words after it are the resolved numbers, as many as the instruction has parameters. -/
theorem assembledLineDisassembles : Obligations.AssembledLineDisassembles := by
  intro W labels l i ns ws rest hl hws
  obtain ⟨hwf, hlen⟩ := lineInstr_wf hl
  rw [lineWords_of_lineInstr hl] at hws
  obtain ⟨w, ps, hw, hps, rfl⟩ := numWords_cons_eq_ok hws
  obtain ⟨rfl, hval⟩ := wordOf_eq_ok hw
  have hfits : i.opcodeNumber < 2 ^ (W - 1) := by
    have hlt := BitVec.toInt_lt (x := (wrap i.opcodeNumber : Word W))
    rw [hval] at hlt
    exact_mod_cast hlt
  have hd : decode (wrap i.opcodeNumber : Word W) = .ok i := by
    rw [wrap_natCast]; exact decode_opcodeWord hwf hfits
  exact ⟨ps, hps, disassemble_of_decode hd ((length_of_numWords hps).trans hlen)⟩

/-- Settles O6: each pseudo-instruction expands to a line whose numbers are an opcode number below 2048, its operands'
own values, and small constants. -/
theorem pseudoInstructionsEncode : Obligations.PseudoInstructionsEncode := by
  intro W x d hW
  have hlit (v : Int) (h0 : -2048 ≤ v) (h1 : v < 2048) : wordOf v = .ok (wrap v : Word W) :=
    wordOf_of_fits hW h0 h1
  refine ⟨?_, ?_, ?_, ?_, ?_, ?_, ?_, ?_⟩ <;>
    simp (disch := decide) only [lineWords, expandLine, lineInstr, srcMode, srcNum, Instr.opcodeNumber, Mode.digit,
      numWords, numWord, Nat.reduceMul, Nat.reduceAdd, Nat.cast_ofNat, wordOf_toInt, hlit]

end Sys2Proof.Machine
end

section
/-! PROOFS. Operand resolution (20_memory.md R45, R46), and from it what each instruction does where its parameters
resolve and where they do not (41_arithmetic.md to 44_control.md, 60_exceptions.md R155, R159). -/

namespace Sys2Proof.Machine

variable {W : Nat}

/-! ### Resolving a parameter -/

section Operand
variable {e : Engine W} {m : Mode} {k : Nat}

theorem Engine.memRead_of_read_none {a : Int} {x : Access} (h : e.mem.read a = none) :
    e.memRead a x = .error (.outOfRange a e.pc x) := Engine.memRead_of_not_inRange (Memory.read_eq_none.1 h)

theorem Engine.operand_of_sourceIs {v : Word W} (h : e.SourceIs m k v) : e.operand m k = .ok v := by
  obtain ⟨pw, hpw, hm⟩ := h
  simp only [Engine.operand, Engine.memRead_of_read hpw]
  cases m with
  | position => exact Engine.memRead_of_read hm
  | immediate => rw [hm]
  | invalid d => exact hm.elim

theorem Engine.operand_of_sourceFails {r : FaultRecord W} (h : e.SourceFails m k r) : e.operand m k = .error r := by
  obtain ⟨hn, rfl⟩ | ⟨pw, hpw, hm⟩ := h
  · simp only [Engine.operand, Engine.memRead_of_read_none hn]
  · simp only [Engine.operand, Engine.memRead_of_read hpw]
    cases m with
    | position => obtain ⟨hn, rfl⟩ := hm; exact Engine.memRead_of_read_none hn
    | immediate => exact hm.elim
    | invalid d => rw [hm]

theorem Engine.destination_of_destinationIs {d : Int} (h : e.DestinationIs k d) : e.destination k = .ok d := by
  obtain ⟨⟨pw, hpw, rfl⟩, hr⟩ := h
  simp only [Engine.destination, Engine.memRead_of_read hpw, if_pos hr]

theorem Engine.destination_of_destinationFails {r : FaultRecord W} (h : e.DestinationFails k r) :
    e.destination k = .error r := by
  obtain ⟨hn, rfl⟩ | ⟨pw, hpw, hr, rfl⟩ := h
  · simp only [Engine.destination, Engine.memRead_of_read_none hn]
  · simp only [Engine.destination, Engine.memRead_of_read hpw, if_neg hr]

end Operand

/-- Of a value's and a fault's predicates that say what a check answers, exactly one has a member. -/
theorem exists_iff_not_exists_of_answer {ε α : Type} {x : Except ε α} {p : α → Prop} {q : ε → Prop}
    (hp : ∀ v, p v ↔ x = .ok v) (hq : ∀ r, q r ↔ x = .error r) : (∃ v, p v) ↔ ¬ ∃ r, q r := by
  cases x <;> simp [hp, hq]

/-- Settles O11: the operand read answers the value, or the fault, that storage describes. -/
theorem sourceParameterResolves : Obligations.SourceParameterResolves := fun _ _ _ _ =>
  ⟨fun _ => Engine.operand_of_sourceIs, fun _ => Engine.operand_of_sourceFails,
    exists_iff_not_exists_of_answer (fun _ => ⟨Engine.operand_of_sourceIs, Engine.operand_ok⟩)
      (fun _ => ⟨Engine.operand_of_sourceFails, Engine.operand_error⟩)⟩

/-- Settles O12: the destination check answers the address, or the fault, that storage describes. -/
theorem destinationParameterResolves : Obligations.DestinationParameterResolves := fun _ _ _ =>
  ⟨fun _ => Engine.destination_of_destinationIs, fun _ => Engine.destination_of_destinationFails,
    exists_iff_not_exists_of_answer (fun _ => ⟨Engine.destination_of_destinationIs, Engine.destination_ok⟩)
      (fun _ => ⟨Engine.destination_of_destinationFails, Engine.destination_error⟩)⟩

/-! ### The two formats -/

section Format
variable {e : Engine W} {m1 m2 : Mode}

theorem Engine.binary_of_resolved {a b : Word W} {d : Int} (f : Word W → Word W → Word W)
    (ha : e.SourceIs m1 1 a) (hb : e.SourceIs m2 2 b) (hd : e.DestinationIs 3 d) :
    e.binary f m1 m2 = .ok { e with mem := e.mem.write d (f a b), pc := e.pc + 4 } := by
  simp only [Engine.binary, Engine.params3, Engine.operand_of_sourceIs ha, Engine.operand_of_sourceIs hb,
    Engine.destination_of_destinationIs hd]
  rfl

theorem Engine.binary_of_threeFail {r : FaultRecord W} (f : Word W → Word W → Word W) (h : e.ThreeFail m1 m2 r) :
    e.binary f m1 m2 = .error r := by
  obtain h1 | ⟨a, ha, h2⟩ | ⟨a, b, ha, hb, h3⟩ := h
  · simp only [Engine.binary, Engine.params3, Engine.operand_of_sourceFails h1]
  · simp only [Engine.binary, Engine.params3, Engine.operand_of_sourceIs ha, Engine.operand_of_sourceFails h2]
  · simp only [Engine.binary, Engine.params3, Engine.operand_of_sourceIs ha, Engine.operand_of_sourceIs hb,
      Engine.destination_of_destinationFails h3]

theorem Engine.branch_of_resolved {c t : Word W} (taken : Word W → Bool) (hc : e.SourceIs m1 1 c)
    (ht : e.SourceIs m2 2 t) :
    e.branch taken m1 m2 = .ok { e with pc := if taken c then t.toInt else e.pc + 3 } := by
  simp only [Engine.branch, Engine.params2, Engine.operand_of_sourceIs hc, Engine.operand_of_sourceIs ht]
  split <;> rfl

theorem Engine.branch_of_twoFail {r : FaultRecord W} (taken : Word W → Bool) (h : e.TwoFail m1 m2 r) :
    e.branch taken m1 m2 = .error r := by
  obtain h1 | ⟨c, hc, h2⟩ := h
  · simp only [Engine.branch, Engine.params2, Engine.operand_of_sourceFails h1]
  · simp only [Engine.branch, Engine.params2, Engine.operand_of_sourceIs hc, Engine.operand_of_sourceFails h2]

end Format

/-! ### Which instruction has which format -/

theorem exec_of_mem_binary {i : Instr} {m1 m2 : Mode}
    (hi : i ∈ [Instr.add m1 m2, .mul m1 m2, .lt m1 m2, .eq m1 m2]) :
    ∃ f, ∀ s : Block W, exec i (.of s) = s.execute (Engine.binary f m1 m2) := by
  simp only [List.mem_cons, List.not_mem_nil, or_false] at hi
  obtain rfl | rfl | rfl | rfl := hi
  · exact ⟨fun a b => wrap (a.toInt + b.toInt), fun _ => rfl⟩
  · exact ⟨fun a b => wrap (a.toInt * b.toInt), fun _ => rfl⟩
  · exact ⟨fun a b => boolWord (wordLt a b), fun _ => rfl⟩
  · exact ⟨fun a b => boolWord (wordEq a b), fun _ => rfl⟩

theorem exec_of_mem_branch {i : Instr} {m1 m2 : Mode} (hi : i ∈ [Instr.jt m1 m2, .jf m1 m2]) :
    ∃ taken, ∀ s : Block W, exec i (.of s) = s.execute (Engine.branch taken m1 m2) := by
  simp only [List.mem_cons, List.not_mem_nil, or_false] at hi
  obtain rfl | rfl := hi
  · exact ⟨condNonZero, fun _ => rfl⟩
  · exact ⟨condZero, fun _ => rfl⟩

/-- The instructions by what they call: no capability (in format F3, in format F2S, or HLT), the source, or the sink. -/
theorem Instr.cases_of_format (i : Instr) :
    (∃ m1 m2, i ∈ [Instr.add m1 m2, .mul m1 m2, .lt m1 m2, .eq m1 m2]) ∨
      (∃ m1 m2, i ∈ [Instr.jt m1 m2, .jf m1 m2]) ∨ i = .hlt ∨ i = .inp ∨ ∃ m, i = .out m := by
  cases i <;> simp

/-! ### Where an engine executes -/

section Executing
variable {s : Block W} {id : EngineId} {e : Engine W}

theorem Block.execute_ok {e' : Engine W} {f : Engine W → Except (FaultRecord W) (Engine W)} (h : Executes s id e)
    (hf : f e = .ok e') : s.execute f = .next (.of (s.setEngine id e')) := by
  rw [Block.execute_of_executes h, hf]

theorem Block.execute_error {r : FaultRecord W} {f : Engine W → Except (FaultRecord W) (Engine W)}
    (h : Executes s id e) (hf : f e = .error r) :
    s.execute f = .next (.of (s.setEngine id { e with status := .faulted, fault := some r })) := by
  rw [Block.execute_of_executes h, hf, ← Block.raise_of_executes h]
  rfl

theorem exec_inp_of_supply {d : Int} {v : Word W} {s' : Block W} (h : Executes s id e) (hd : e.DestinationIs 1 d)
    (hs : s.supply id = .ok (v, s')) :
    exec .inp (.of s) = .next (.of (s'.setEngine id { e with mem := e.mem.write d v, pc := e.pc + 2 })) := by
  simp only [exec, execIn, Block.onRunning_of_executes h, Engine.destination_of_destinationIs hd, hs]
  rfl

theorem exec_inp_of_supply_error {d : Int} {r : FaultRecord W} (h : Executes s id e) (hd : e.DestinationIs 1 d)
    (hs : s.supply id = .error r) :
    exec .inp (.of s) = .next (.of (s.setEngine id { e with status := .faulted, fault := some r })) := by
  simp only [exec, execIn, Block.onRunning_of_executes h, Engine.destination_of_destinationIs hd, hs,
    Block.raise_of_executes h]

theorem exec_inp_of_destinationFails {r : FaultRecord W} (h : Executes s id e) (hd : e.DestinationFails 1 r) :
    exec .inp (.of s) = .next (.of (s.setEngine id { e with status := .faulted, fault := some r })) := by
  simp only [exec, execIn, Block.onRunning_of_executes h, Engine.destination_of_destinationFails hd,
    Block.raise_of_executes h]

theorem exec_out_of_sourceIs {m : Mode} {v : Word W} (h : Executes s id e) (hv : e.SourceIs m 1 v) :
    exec (.out m) (.of s) = .next (.of ((s.consume id v).setEngine id
      (if e.fb then { e with status := .suspended } else { e with pc := e.pc + 2 }))) := by
  simp only [exec, execOut, Block.onRunning_of_executes h, Engine.operand_of_sourceIs hv]
  rfl

theorem exec_out_of_sourceFails {m : Mode} {r : FaultRecord W} (h : Executes s id e) (hv : e.SourceFails m 1 r) :
    exec (.out m) (.of s) = .next (.of (s.setEngine id { e with status := .faulted, fault := some r })) := by
  simp only [exec, execOut, Block.onRunning_of_executes h, Engine.operand_of_sourceFails hv,
    Block.raise_of_executes h]

/-- The two answers of IN: a fault, or the supplied word at its destination. -/
theorem exec_inp_cases (h : Executes s id e) :
    (∃ r, exec .inp (.of s) = .next (.of (s.setEngine id { e with status := .faulted, fault := some r }))) ∨
    (∃ d v s', e.destination 1 = .ok d ∧ s.supply id = .ok (v, s') ∧
      exec .inp (.of s) = .next (.of (s'.setEngine id { e with mem := e.mem.write d v, pc := e.pc + 2 }))) := by
  cases hd : e.destination 1 with
  | error r => exact .inl ⟨r, exec_inp_of_destinationFails h (Engine.destination_error hd)⟩
  | ok d =>
    cases hs : s.supply id with
    | error r => exact .inl ⟨r, exec_inp_of_supply_error h (Engine.destination_ok hd) hs⟩
    | ok p => exact .inr ⟨d, p.1, p.2, rfl, rfl, exec_inp_of_supply h (Engine.destination_ok hd) hs⟩

/-- The two answers of OUT: a fault, or a word to the sink. -/
theorem exec_out_cases (h : Executes s id e) (m : Mode) :
    (∃ r, exec (.out m) (.of s) = .next (.of (s.setEngine id { e with status := .faulted, fault := some r }))) ∨
    (∃ v, exec (.out m) (.of s) = .next (.of ((s.consume id v).setEngine id
      (if e.fb then { e with status := .suspended } else { e with pc := e.pc + 2 })))) := by
  cases hv : e.operand m 1 with
  | error r => exact .inl ⟨r, exec_out_of_sourceFails h (Engine.operand_error hv)⟩
  | ok v => exact .inr ⟨v, exec_out_of_sourceIs h (Engine.operand_ok hv)⟩

end Executing

/-! ### Arithmetic and comparison -/

/-- Settles O13: the format with the wrapped sum. -/
theorem addWritesTheWrappedSum : Obligations.AddWritesTheWrappedSum :=
  fun _ _ _ _ _ _ _ _ _ hex ha hb hd => Block.execute_ok hex (Engine.binary_of_resolved _ ha hb hd)

/-- Settles O14: the format with the wrapped product. -/
theorem mulWritesTheWrappedProduct : Obligations.MulWritesTheWrappedProduct :=
  fun _ _ _ _ _ _ _ _ _ hex ha hb hd => Block.execute_ok hex (Engine.binary_of_resolved _ ha hb hd)

theorem boolWord_decide (p : Prop) [Decidable p] : (boolWord (decide p) : Word W) = if p then 1 else 0 := by
  simp [boolWord]

/-- Settles O15: the row 07, the format with the signed comparison, and its faults. -/
theorem lessThanComparesSigned : Obligations.LessThanComparesSigned := by
  refine ⟨fun W w h0 hop => decode_of_some h0 (decodeDigits_lt hop),
    fun W s id e m1 m2 a b d hex ha hb hd => ?_,
    fun W s id e m1 m2 r hex hf => Block.execute_error hex (Engine.binary_of_threeFail _ hf)⟩
  rw [← boolWord_decide]
  exact Block.execute_ok hex (Engine.binary_of_resolved _ ha hb hd)

/-- Settles O16: the row 08, the format with the equality of words, and its faults. -/
theorem equalsComparesWholeWords : Obligations.EqualsComparesWholeWords := by
  refine ⟨fun W w h0 hop => decode_of_some h0 (decodeDigits_eq hop),
    fun W s id e m1 m2 a b d hex ha hb hd => ?_,
    fun W s id e m1 m2 r hex hf => Block.execute_error hex (Engine.binary_of_threeFail _ hf)⟩
  rw [← boolWord_decide]
  exact Block.execute_ok hex (Engine.binary_of_resolved _ ha hb hd)

/-- Settles O24: the four instructions are one format. -/
theorem threeParameterFaultsArePrecise : Obligations.ThreeParameterFaultsArePrecise := by
  intro W s id e i m1 m2 r hi hex hf
  obtain ⟨f, hexec⟩ := exec_of_mem_binary (W := W) hi
  rw [hexec, Block.execute_error hex (Engine.binary_of_threeFail f hf)]

/-! ### Control transfer -/

theorem toInt_eq_zero {c : Word W} : c.toInt = 0 ↔ c = 0 := by
  rw [← BitVec.toInt_inj]
  simp

/-- Settles O20: the format with the condition that a word is not zero. -/
theorem jumpIfTrue : Obligations.JumpIfTrue := by
  intro W s id e m1 m2 c t hex hc ht
  have hb := Engine.branch_of_resolved condNonZero hc ht
  simp only [condNonZero, decide_eq_true_eq, ne_eq, ← toInt_eq_zero] at hb
  exact Block.execute_ok hex hb

/-- Settles O21: the format with the condition that a word is zero. -/
theorem jumpIfFalse : Obligations.JumpIfFalse := by
  intro W s id e m1 m2 c t hex hc ht
  have hb := Engine.branch_of_resolved condZero hc ht
  simp only [condZero, decide_eq_true_eq, ← toInt_eq_zero] at hb
  exact Block.execute_ok hex hb

/-- Settles O22: HLT cannot fault. -/
theorem haltStopsAtTheSentinel : Obligations.HaltStopsAtTheSentinel :=
  fun _ _ _ _ hex => Block.execute_ok (f := fun e => .ok e.halt) hex rfl

/-- Settles O25: the two jumps are one format, which resolves both parameters before it looks at the condition. -/
theorem jumpFaultsArePreciseAndEager : Obligations.JumpFaultsArePreciseAndEager := by
  intro W s id e i m1 m2 r hi hex hf
  obtain ⟨taken, hexec⟩ := exec_of_mem_branch (W := W) hi
  rw [hexec, Block.execute_error hex (Engine.branch_of_twoFail taken hf)]

/-! ### The engine of an amplifier -/

section Ring
variable {s : Block W} {i : Nat} {a : Amplifier W}

theorem executes_ring (hact : s.activity.engineId = some (.ring i)) (ha : s.circuit.amps[i]? = some a)
    (hrun : a.engine.status = .running) : Executes s (.ring i) a.engine :=
  ⟨hact, by simp [Block.engine?, ha], hrun⟩

theorem Block.supply_ring_ok {v : Word W} {a' : Amplifier W} (ha : s.circuit.amps[i]? = some a)
    (hs : a.supply = .ok (v, a')) : s.supply (.ring i) = .ok (v, s.putAmp i a') := by
  simp [Block.supply, ha, hs, Block.mapAmp_eq_putAmp ha]

theorem Block.supply_ring_error {r : FaultRecord W} (ha : s.circuit.amps[i]? = some a)
    (hs : a.supply = .error r) : s.supply (.ring i) = .error r := by
  simp [Block.supply, ha, hs]

theorem Block.consume_ring (ha : s.circuit.amps[i]? = some a) (v : Word W) :
    s.consume (.ring i) v = s.putAmp i (a.consume v) := Block.mapAmp_eq_putAmp ha

/-- Replacing the engine of an amplifier that was just put in place. -/
theorem Block.setEngine_putAmp {b : Amplifier W} {e : Engine W} (ha : s.circuit.amps[i]? = some a) :
    (s.putAmp i b).setEngine (.ring i) e = s.putAmp i { b with engine := e } := by
  rw [Block.setEngine_eq_putAmp (Block.putAmp_self ha), Block.putAmp_putAmp]

end Ring

/-! ### Input and output -/

section Supply
variable {s : Block W} {a : Amplifier W} {v : Word W}

theorem Block.supply_host_listed {vs : List (Word W)} (h : s.host.inputs = v :: vs) :
    s.supply .host = .ok (v, { s with host := { s.host with inputs := vs } }) := by
  simp [Block.supply, Block.hostSupply, h]

theorem Block.supply_host_free (h : s.host.inputs = []) :
    s.supply .host = .ok (Config.freeWord W s.freeCount, { s with freeCount := s.freeCount + 1 }) := by
  simp [Block.supply, Block.hostSupply, h]

theorem Amplifier.supply_phase (h : a.inState = .awaitingPhase) :
    a.supply = .ok (a.phase, { a with inState := .phaseDelivered }) := by simp [Amplifier.supply, h]

theorem Amplifier.supply_pending (h : a.inState = .phaseDelivered) (hp : a.pending = some v) :
    a.supply = .ok (v, a) := by simp [Amplifier.supply, h, hp]

theorem Amplifier.supply_noPending (h : a.inState = .phaseDelivered) (hp : a.pending = none) :
    a.supply = .error (.callerMisuse .noPendingInput) := by simp [Amplifier.supply, h, hp]

theorem Amplifier.supply_finished (h : a.inState = .finished) :
    a.supply = .error (.callerMisuse .inputAfterHalt) := by simp [Amplifier.supply, h]

/-- What the host's source changes of the block. -/
theorem Block.supply_host_changes {s' : Block W} (h : s.supply .host = .ok (v, s')) :
    ∃ inputs n, s' = { s with host := { s.host with inputs := inputs }, freeCount := n } := by
  cases hin : s.host.inputs with
  | nil => rw [Block.supply_host_free hin] at h; cases h; exact ⟨[], s.freeCount + 1, by rw [← hin]⟩
  | cons x xs => rw [Block.supply_host_listed hin] at h; cases h; exact ⟨xs, s.freeCount, rfl⟩

/-- A word of a ring's source comes from the amplifier at that position. -/
theorem Block.supply_ring_changes {s' : Block W} {i : Nat} (ha : s.circuit.amps[i]? = some a)
    (h : s.supply (.ring i) = .ok (v, s')) : ∃ a', a.supply = .ok (v, a') ∧ s' = s.putAmp i a' := by
  cases hs : a.supply with
  | error r => rw [Block.supply_ring_error ha hs] at h; cases h
  | ok p => rw [Block.supply_ring_ok ha hs] at h; cases h; exact ⟨p.2, rfl, rfl⟩

end Supply

/-- Settles O17: the host's source supplies the listed word, or a free value. -/
theorem inputFromTheHostSource : Obligations.InputFromTheHostSource := by
  refine fun W s e d hex hd => ⟨fun v vs hin => ?_, fun hin => ?_⟩
  · exact exec_inp_of_supply hex hd (Block.supply_host_listed hin)
  · rw [exec_inp_of_supply hex hd (Block.supply_host_free hin), ← hin]
    rfl

/-- Settles O18: the four answers of the amplifier's source. -/
theorem inputFromTheAmplifier : Obligations.InputFromTheAmplifier := by
  intro W s i a d hact ha hrun hd
  have hex := executes_ring hact ha hrun
  refine ⟨fun hin => ?_, fun v hin hp => ?_, fun hin hp => ?_, fun hin => ?_⟩
  · rw [exec_inp_of_supply hex hd (Block.supply_ring_ok ha (Amplifier.supply_phase hin)),
      Block.setEngine_putAmp ha]
  · rw [exec_inp_of_supply hex hd (Block.supply_ring_ok ha (Amplifier.supply_pending hin hp)),
      Block.setEngine_putAmp ha]
  · rw [exec_inp_of_supply_error hex hd (Block.supply_ring_error ha (Amplifier.supply_noPending hin hp)),
      Block.setEngine_eq_putAmp ha]
  · rw [exec_inp_of_supply_error hex hd (Block.supply_ring_error ha (Amplifier.supply_finished hin)),
      Block.setEngine_eq_putAmp ha]

/-- Settles O19: the row 04, the word that reaches each of the two sinks, and the fault of the source. -/
theorem outputEmitsAndSuspendsInFeedbackMode : Obligations.OutputEmitsAndSuspendsInFeedbackMode := by
  refine ⟨fun W w h0 hop => decode_of_some h0 (decodeDigits_out hop), fun W s e m v hex hv => ?_,
    fun W s i a m v hact ha hrun hv => ?_, fun W s id e m r hex hf => exec_out_of_sourceFails hex hf⟩
  · exact exec_out_of_sourceIs hex hv
  · rw [exec_out_of_sourceIs (executes_ring hact ha hrun) hv, Block.consume_ring ha, Block.setEngine_putAmp ha]
    rfl

/-- Settles O26: both faults are raised before the capability is called. -/
theorem faultingInputAndOutputCallNothing : Obligations.FaultingInputAndOutputCallNothing :=
  fun _ _ _ _ _ _ hex => ⟨exec_inp_of_destinationFails hex, exec_out_of_sourceFails hex⟩

/-! ### Every instruction answers -/

theorem Block.onRunning_of_not_executes {s : Block W} (h : ¬ ∃ id e, Executes s id e)
    (k : EngineId → Engine W → Outcome) : s.onRunning k = .fault .noRunningEngine := by
  unfold Block.onRunning
  split
  · rfl
  · rename_i id hid
    split
    · rfl
    · rename_i e he
      exact if_neg fun hrun => h ⟨id, e, hid, he, hrun⟩

theorem exec_of_not_executes {s : Block W} (h : ¬ ∃ id e, Executes s id e) (i : Instr) :
    exec i (.of s) = .fault .noRunningEngine := by
  cases i <;> exact Block.onRunning_of_not_executes h _

theorem exec_of_executes {s : Block W} {id : EngineId} {e : Engine W} (h : Executes s id e) (i : Instr) :
    ∃ t : Block W, exec i (.of s) = .next (.of t) := by
  obtain ⟨m1, m2, hi⟩ | ⟨m1, m2, hi⟩ | rfl | rfl | ⟨m, rfl⟩ := Instr.cases_of_format i
  · obtain ⟨f, hexec⟩ := exec_of_mem_binary (W := W) hi
    exact ⟨_, (hexec s).trans (Block.execute_of_executes h _)⟩
  · obtain ⟨taken, hexec⟩ := exec_of_mem_branch (W := W) hi
    exact ⟨_, (hexec s).trans (Block.execute_of_executes h _)⟩
  · exact ⟨_, Block.execute_of_executes h fun e => .ok e.halt⟩
  · obtain ⟨r, hx⟩ | ⟨d, v, s', -, -, hx⟩ := exec_inp_cases h
    · exact ⟨_, hx⟩
    · exact ⟨_, hx⟩
  · obtain ⟨r, hx⟩ | ⟨v, hx⟩ := exec_out_cases h m
    · exact ⟨_, hx⟩
    · exact ⟨_, hx⟩

/-- Settles O23: each answer of the operands and of the source has its next state. -/
theorem everyInstructionAnswersWhereAnEngineExecutes : Obligations.EveryInstructionAnswersWhereAnEngineExecutes :=
  fun _ i _ => ⟨fun ⟨_, _, h⟩ => exec_of_executes h i, fun h => exec_of_not_executes h i⟩

/-! ### The fetch -/

/-- Settles O27: the fetch raises outside the storage, and at a word the decoder's table calls Unknown. -/
theorem fetchAndDispatchFaults : Obligations.FetchAndDispatchFaults := by
  refine fun W s id e hex => ⟨fun hout => ?_, fun w hw => ⟨fun hneg => ?_, fun h0 hop => ?_⟩⟩
  · exact step_of_fetch_error hex
      (Engine.fetch_of_read_none (Memory.read_eq_none.2 (Memory.not_inRange_of_outside hout)))
  · exact step_of_fetch_error hex (Engine.fetch_of_decode_unknown hw (decode_of_neg hneg))
  · exact step_of_fetch_error hex (Engine.fetch_of_decode_unknown hw (decode_of_none h0 (decodeDigits_none hop)))

end Sys2Proof.Machine
end

section
/-! PROOFS. The host's calls of an engine (40_engine_cycle.md R90 to R95, 20_memory.md R47 to R49): one step each,
served where no call is active. -/

namespace Sys2Proof.Machine

variable {W : Nat}

/-! ### What an engine's call returns -/

section Returned
variable {e : Engine W}

theorem Engine.returned_of_not_faulted (h : e.status ≠ .faulted) : e.returned = none := if_neg h

theorem Engine.returned_of_faulted (h : e.status = .faulted) : e.returned = e.fault := if_pos h

theorem Engine.reply_of_not_faulted (h : e.status ≠ .faulted) : e.reply = .done := by
  simp [Engine.reply, Engine.returned_of_not_faulted h]

theorem Engine.reply_of_faulted {r : FaultRecord W} (h : e.status = .faulted) (hr : e.fault = some r) :
    e.reply = .fault r := by
  simp [Engine.reply, Engine.returned_of_faulted h, hr]

end Returned

/-! ### Serving a call on an engine that exists -/

section Serve
variable {s : Block W} {id : EngineId} {e : Engine W}

theorem Block.withEngine_of_some (h : s.engine? id = some e) (k : Engine W → Outcome) : s.withEngine id k = k e := by
  simp [Block.withEngine, h]

theorem Block.answer_of_idle (h : s.activity = .idle) (r : Reply W) : s.answer r = { s with reply := some r } := by
  simp [Block.answer, ← h]

theorem Block.run_of_running (he : s.engine? id = some e) (h : e.status = .running) :
    s.run id = .next (.of { s with activity := .engine id }) := by
  simp [Block.run, Block.withEngine_of_some he, h]

theorem Block.run_of_halted (he : s.engine? id = some e) (h : e.status = .halted) :
    s.run id = .next (.of (s.answer .done)) := by
  simp [Block.run, Block.withEngine_of_some he, h]

theorem Block.run_of_faulted (he : s.engine? id = some e) (h : e.status = .faulted) :
    s.run id = .next (.of (s.answer e.reply)) := by
  simp [Block.run, Block.withEngine_of_some he, h]

theorem Block.run_of_suspended (he : s.engine? id = some e) (h : e.status = .suspended) :
    s.run id = s.hostFault id e (.callerMisuse .runWhileSuspended) := by
  simp [Block.run, Block.withEngine_of_some he, h]

theorem Block.resume_of_suspended (he : s.engine? id = some e) (h : e.status = .suspended) :
    s.resume id = .next (.of { s.setEngine id e.wake with activity := .engine id }) := by
  simp [Block.resume, Block.withEngine_of_some he, h]

theorem Block.resume_of_faulted (he : s.engine? id = some e) (h : e.status = .faulted) :
    s.resume id = .next (.of (s.answer e.reply)) := by
  simp [Block.resume, Block.withEngine_of_some he, h]

theorem Block.resume_of_running_or_halted (he : s.engine? id = some e)
    (h : e.status = .running ∨ e.status = .halted) :
    s.resume id = s.hostFault id e (.callerMisuse .resumeNotSuspended) := by
  obtain h | h := h <;> simp [Block.resume, Block.withEngine_of_some he, h]

theorem Block.readAddress_of_read {a : Int} {v : Word W} (he : s.engine? id = some e) (h : e.mem.read a = some v) :
    s.readAddress id a = .next (.of (s.answer (.word v))) := by
  simp [Block.readAddress, Block.withEngine_of_some he, Engine.memRead_of_read h]

theorem Block.readAddress_of_read_none {a : Int} (he : s.engine? id = some e) (h : e.mem.read a = none) :
    s.readAddress id a = s.hostFault id e (.outOfRange a e.pc .host) := by
  simp [Block.readAddress, Block.withEngine_of_some he, Engine.memRead_of_read_none h]

theorem Block.readWords_of_inside {a n : Int} (he : s.engine? id = some e)
    (h : ¬ (n < 0 ∨ a < 0 ∨ (e.mem.length : Int) < a + n)) :
    s.readWords id a n = .next (.of (s.answer (.words ((e.mem.drop a.toNat).take n.toNat)))) := by
  rw [Block.readWords, Block.withEngine_of_some he, if_neg h]

theorem Block.readWords_of_outside {a n : Int} (he : s.engine? id = some e)
    (h : n < 0 ∨ a < 0 ∨ (e.mem.length : Int) < a + n) :
    s.readWords id a n = s.hostFault id e (.callerMisuse .inspectionRange) := by
  rw [Block.readWords, Block.withEngine_of_some he, if_pos h]

theorem Block.poke_of_inRange {a : Int} {v : Word W} (he : s.engine? id = some e) (h : e.mem.inRange a) :
    s.poke id a v = .next (.of ((s.setEngine id (e.store a v)).answer .done)) := by
  simp [Block.poke, Block.withEngine_of_some he, Engine.memWrite_of_inRange h]

theorem Block.poke_of_not_inRange {a : Int} {v : Word W} (he : s.engine? id = some e) (h : ¬ e.mem.inRange a) :
    s.poke id a v = s.hostFault id e (.outOfRange a e.pc .host) := by
  simp [Block.poke, Block.withEngine_of_some he, Engine.memWrite_of_not_inRange h]

/-- A call that raises on an engine that is not Faulted (60_exceptions.md R156). -/
theorem Block.hostFault_of_not_faulted (hact : s.activity = .idle) (h : e.status ≠ .faulted) (r : FaultRecord W) :
    s.hostFault id e r = .next (.of
      { s.setEngine id { e with status := .faulted, fault := some r } with reply := some (.fault r) }) := by
  have hidle : (s.setEngine id { e with status := .faulted, fault := some r }).activity = .idle := by simpa using hact
  rw [Block.hostFault, Block.raise_eq, Engine.raise_of_not_faulted _ _ h, Block.answer_of_idle hidle]

/-- Taking a call off the host's list leaves the engines. -/
theorem Block.engine?_pop (h : s.engine? id = some e) (cs : List (HostCall W)) :
    ({ s with calls := cs, reply := none } : Block W).engine? id = some e :=
  (Block.engine?_congr rfl rfl id).trans h

end Serve

/-! ### The entry points -/

/-- Settles O39: the four statuses of the engine that is run. -/
theorem runEntryPoint : Obligations.RunEntryPoint := by
  intro W s id e cs hact hcalls he s'
  have hidle : s'.activity = .idle := hact
  have he' : s'.engine? id = some e := Block.engine?_pop he cs
  rw [show step (.of s) = s'.run id from step_of_idle hact hcalls]
  refine ⟨fun hst => ?_, fun hst => ?_, fun r hst hr => ?_, fun hst => ?_⟩
  · exact Block.run_of_running he' hst
  · rw [Block.run_of_halted he' hst, Block.answer_of_idle hidle]
  · rw [Block.run_of_faulted he' hst, Engine.reply_of_faulted hst hr, Block.answer_of_idle hidle]
  · rw [Block.run_of_suspended he' hst, Block.hostFault_of_not_faulted hidle (by simp [hst])]

/-- Settles O40: the four statuses of the engine that is resumed. -/
theorem resumeEntryPoint : Obligations.ResumeEntryPoint := by
  intro W s id e cs hact hcalls he s'
  have hidle : s'.activity = .idle := hact
  have he' : s'.engine? id = some e := Block.engine?_pop he cs
  rw [show step (.of s) = s'.resume id from step_of_idle hact hcalls]
  refine ⟨fun hst => ?_, fun r hst hr => ?_, fun hst => ?_⟩
  · exact Block.resume_of_suspended he' hst
  · rw [Block.resume_of_faulted he' hst, Engine.reply_of_faulted hst hr, Block.answer_of_idle hidle]
  · have hnf : e.status ≠ .faulted := by obtain hst | hst := hst <;> simp [hst]
    rw [Block.resume_of_running_or_halted he' hst, Block.hostFault_of_not_faulted hidle hnf]

theorem Memory.wf_of_le {P : List (Word W)} (h : P.length ≤ Config.maxLength W) : Memory.wf P = true :=
  decide_eq_true h

/-- Settles O42: the image is within the bound, so neither call is refused. -/
theorem engineConstructionAndReset : Obligations.EngineConstructionAndReset := by
  intro W s P ins cs hact hlen
  have hwf : Memory.wf P = true := Memory.wf_of_le hlen
  refine ⟨fun hcalls => ?_, fun hcalls => ?_⟩ <;> rw [step_of_idle hact hcalls]
  · simp [Block.serve, Block.constructEngine, hwf, Block.answer, hact, Engine.fresh]
  · simp [Block.serve, Block.resetEngine, hwf, Block.answer, hact, Engine.fresh, Block.setEngine]

/-! ### Inspection and seeding -/

/-- Element `k` of the words read from an address is the word at that address plus `k` (20_memory.md R48). -/
theorem Memory.getElem?_range {m : Memory W} {a n : Int} {k : Nat} (ha : 0 ≤ a) (han : a + n ≤ m.length)
    (hk : (k : Int) < n) : ((m.drop a.toNat).take n.toNat)[k]? = m.read (a + k) := by
  have hr : m.inRange (a + k) := by constructor <;> omega
  have hnat : (a + k).toNat = a.toNat + k := by omega
  rw [Memory.read_eq_getElem? hr, hnat, List.getElem?_take_of_lt (by omega), List.getElem?_drop]

theorem Memory.length_range {m : Memory W} {a n : Int} (hn : 0 ≤ n) (ha : 0 ≤ a) (han : a + n ≤ m.length) :
    (((m.drop a.toNat).take n.toNat).length : Int) = n := by
  rw [List.length_take, List.length_drop]; omega

/-- Settles O43: each read answers from storage within its bounds and raises outside them. -/
theorem inspectionReads : Obligations.InspectionReads := by
  intro W s id e a n cs hact he s' failed
  have hidle : s'.activity = .idle := hact
  have he' : s'.engine? id = some e := Block.engine?_pop he cs
  refine ⟨fun hcalls => ?_, fun hcalls => ?_⟩
  · rw [show step (.of s) = s'.readAddress id a from step_of_idle hact hcalls]
    refine ⟨fun v hv => ?_, fun hn hst => ?_⟩
    · rw [Block.readAddress_of_read he' hv, Block.answer_of_idle hidle]
    · rw [Block.readAddress_of_read_none he' hn, Block.hostFault_of_not_faulted hidle hst]
  · rw [show step (.of s) = s'.readWords id a n from step_of_idle hact hcalls]
    refine ⟨fun hn ha han => ?_, fun hout hst => ?_⟩
    · rw [Block.readWords_of_inside he' (by omega), Block.answer_of_idle hidle]
      exact ⟨_, rfl, Memory.length_range hn ha han, fun k => Memory.getElem?_range ha han⟩
    · rw [Block.readWords_of_outside he' hout, Block.hostFault_of_not_faulted hidle hst]

/-- Settles O44: `MemWrite` inside and outside the storage. -/
theorem pokeSeedsOneWord : Obligations.PokeSeedsOneWord := by
  intro W s id e a v cs hact hcalls he s'
  have hidle : s'.activity = .idle := hact
  have he' : s'.engine? id = some e := Block.engine?_pop he cs
  rw [show step (.of s) = s'.poke id a v from step_of_idle hact hcalls]
  refine ⟨fun h0 h1 => ?_, fun hout hst => ?_⟩
  · rw [Block.poke_of_inRange he' ⟨h0, h1⟩, Block.answer_of_idle (by simpa using hidle)]
    rfl
  · rw [Block.poke_of_not_inRange he' (Memory.not_inRange_of_outside hout), Block.hostFault_of_not_faulted hidle hst]

/-! ### The round trip of OUT in feedback mode -/

/-- Where the loop of the engine that the host runs has ended, the step returns to the host. -/
theorem step_of_engine_return {s : Block W} {id : EngineId} {e : Engine W} (hact : s.activity = .engine id)
    (he : s.engine? id = some e) (hrun : e.status ≠ .running) : step (.of s) = .next (.of (s.answer e.reply)) := by
  have hid : s.activity.engineId = some id := by rw [hact]; rfl
  calc step (.of s)
      = s.returnStep := by simp [step, hid, he, hrun]
    _ = .next (.of (s.answer e.reply)) := by simp [Block.returnStep, hact, he]

/-- Settles O41: OUT suspends the engine, the return answers None, and `resume()` takes the deferred advance. -/
theorem resumedOutputContinuesAsIfUninterrupted : Obligations.ResumedOutputContinuesAsIfUninterrupted := by
  intro W s id e m v cs hact hex hv hfb
  have ⟨_, he, hrun⟩ := hex
  let e' : Engine W := { e with status := .suspended }
  let t := (s.consume id v).setEngine id e'
  have hout : exec (.out m) (.of s) = .next (.of t) := by rw [exec_out_of_sourceIs hex hv, if_pos hfb]
  have hte : t.engine? id = some e' := Block.engine?_setEngine_self ((s.consume_engine? id v id).trans he)
  have hret : step (.of t) = .next (.of (t.answer .done)) := by
    rw [step_of_engine_return (by simpa [t] using hact) hte (by simp [e']),
      Engine.reply_of_not_faulted (by simp [e'])]
  let u : Block W := { t.answer .done with calls := cs, reply := none }
  have hue : u.engine? id = some e' := (Block.engine?_congr rfl rfl id).trans hte
  have hresume : step (.of { t.answer .done with calls := .resume id :: cs }) =
      .next (.of { u.setEngine id e'.wake with activity := .engine id }) := by
    rw [← Block.resume_of_suspended hue rfl]
    exact step_of_idle (c := .resume id) (cs := cs) rfl rfl
  have hwake : e'.wake = { e with pc := e.pc + 2 } := by simp [e', Engine.wake, hrun]
  refine ⟨t, t.answer .done, _, hout, hret, rfl, rfl, hresume, rfl, ?_⟩
  rw [← hwake]
  exact (Block.engine?_congr rfl rfl id).trans (Block.engine?_setEngine_self hue)

end Sys2Proof.Machine
end

section
/-! PROOFS. The Amplifier's calls (45_amplifier.md R117 to R121) and the Feedback Circuit's sequencing
(46_feedback_circuit.md R131 to R138). -/

namespace Sys2Proof.Machine

variable {W : Nat}

/-! ### The Amplifier -/

section Amplifier
variable {a : Amplifier W} {i : Nat}

theorem Amplifier.result_of_fault {r : FaultRecord W} (h : a.engine.status = .faulted)
    (hr : a.engine.fault = some r) : a.result i = .error r := by
  simp [Amplifier.result, Engine.returned_of_faulted h, hr]

theorem Amplifier.result_of_noOutput (h : a.engine.status ≠ .faulted) (hl : a.lastOut = none) :
    a.result i = .error (.noOutput i) := by
  simp [Amplifier.result, Engine.returned_of_not_faulted h, hl]

theorem Amplifier.result_of_lastOut {v : Word W} (h : a.engine.status ≠ .faulted) (hl : a.lastOut = some v) :
    a.result i = .ok v := by
  simp [Amplifier.result, Engine.returned_of_not_faulted h, hl]

end Amplifier

theorem Block.withAmp_of_some {s : Block W} {i : Nat} {a : Amplifier W} (h : s.circuit.amps[i]? = some a)
    (k : Amplifier W → Outcome) : s.withAmp i k = k a := by
  simp [Block.withAmp, h]

theorem Block.amplifierRun_of_some {s : Block W} {i : Nat} {a : Amplifier W} (h : s.circuit.amps[i]? = some a)
    (x : Word W) : s.amplifierRun i x = .next (.of { s.putAmp i (a.begin x) with activity := .amplifier i }) := by
  rw [Block.amplifierRun, Block.withAmp_of_some h, Block.mapAmp_eq_putAmp h]

theorem Block.amplifierReset_of_some {s : Block W} {i : Nat} {a : Amplifier W} (h : s.circuit.amps[i]? = some a) :
    s.amplifierReset i = .next (.of ((s.putAmp i a.reset).answer .done)) := by
  rw [Block.amplifierReset, Block.withAmp_of_some h, Block.mapAmp_eq_putAmp h]

/-- Where the loop of the amplifier that the host runs has ended, the step settles it and returns to the host. -/
theorem step_of_amplifier_return {s : Block W} {i : Nat} {a : Amplifier W} (hact : s.activity = .amplifier i)
    (ha : s.circuit.amps[i]? = some a) (hrun : a.engine.status ≠ .running) :
    step (.of s) = .next (.of ((s.putAmp i a.settle).answer (a.reply i))) := by
  have hid : s.activity.engineId = some (.ring i) := by rw [hact]; rfl
  have he : s.engine? (.ring i) = some a.engine := by simp [Block.engine?, ha]
  calc step (.of s)
      = s.returnStep := by simp [step, hid, he, hrun]
    _ = .next (.of ((s.mapAmp i fun _ => a.settle).answer (a.reply i))) := by simp [Block.returnStep, hact, ha]
    _ = .next (.of ((s.putAmp i a.settle).answer (a.reply i))) := by rw [Block.mapAmp_eq_putAmp ha]

/-- Settles O45: `begin` replaces the amplifier, and its call becomes the active one. -/
theorem amplifierRunRecordsThePendingInput : Obligations.AmplifierRunRecordsThePendingInput := by
  intro W s i a x cs hact hcalls ha a'
  rw [step_of_idle hact hcalls]
  exact Block.amplifierRun_of_some (s := { s with calls := cs, reply := none }) ha x

/-- Settles O46: the three results of an amplifier whose engine has stopped. -/
theorem amplifierRunReturns : Obligations.AmplifierRunReturns := by
  intro W s i a hact ha hrun a' back
  rw [step_of_amplifier_return hact ha hrun, Amplifier.reply]
  refine ⟨fun r hst hr => ?_, fun hst hl => ?_, fun v hst hl => ?_⟩
  · rw [Amplifier.result_of_fault hst hr]; rfl
  · rw [Amplifier.result_of_noOutput hst hl]; rfl
  · rw [Amplifier.result_of_lastOut hst hl]; rfl

/-- Settles O47: the reset amplifier takes the place of the old one. -/
theorem amplifierResetRestoresTheImage : Obligations.AmplifierResetRestoresTheImage := by
  intro W s i a cs hact hcalls ha a'
  let s' : Block W := { s with calls := cs, reply := none }
  have hidle : (s'.putAmp i a.reset).activity = .idle := hact
  have hstep : step (.of s) = s'.amplifierReset i := step_of_idle hact hcalls
  rw [hstep, Block.amplifierReset_of_some (s := s') ha, Block.answer_of_idle hidle]
  rfl

/-! ### The circuit's calls -/

/-- Settles O49: the ring is the list of the phases' amplifiers. -/
theorem circuitConstruction : Obligations.CircuitConstruction := by
  intro W s P phases cs hact hcalls
  rw [step_of_idle hact hcalls]
  refine ⟨fun hnil => ?_, fun hne hlen => ?_⟩
  · simp [Block.serve, Block.constructCircuit, hnil, Block.answer, hact]
  · simp only [Block.serve, Block.constructCircuit, if_neg hne, Memory.wf_of_le hlen, if_true]
    refine ⟨_, rfl, rfl, rfl, rfl, rfl, by simp [Circuit.construct], fun i ph hph => ?_⟩
    simp [Circuit.construct, hph, Amplifier.construct, Engine.fresh]

/-- Settles O50: `start` resets the ring, and amplifier 0, which is not Suspended then, is called with the seed. -/
theorem circuitRunStarts : Obligations.CircuitRunStarts := by
  intro W s seed fbMode cs hact hcalls hne
  rw [step_of_idle hact hcalls]
  simp only [Block.serve, Block.circuitRun, if_neg hne]
  refine ⟨_, rfl, rfl, rfl, rfl, rfl, rfl, rfl, rfl, by simp [Block.callAmp, Circuit.start], fun i a ha => ?_⟩
  rw [Block.callAmp_amps]
  obtain rfl | hi := eq_or_ne i 0
  · simp [Circuit.start, ha, Amplifier.begin, Amplifier.reset, Engine.fresh]
  · simp [Circuit.start, ha, Amplifier.reset, Engine.fresh, hi, hi.symm]

/-! ### The end of an amplifier's run within a pass -/

section AfterAmp
variable {s : Block W} {i : Nat} (v : Word W)

/-- The block with the word `v` carried as the signal. -/
def Block.carry (s : Block W) (v : Word W) : Block W := { s with circuit := { s.circuit with signal := v } }

theorem Block.afterAmp_next (h : i + 1 < s.circuit.amps.length) :
    s.afterAmp i (.ok v) = (s.carry v).callAmp (i + 1) := by
  simp [Block.afterAmp, h, Block.carry]

theorem Block.afterAmp_last (h : i + 1 = s.circuit.amps.length) : s.afterAmp i (.ok v) = (s.carry v).endPass := by
  simp [Block.afterAmp, h, Block.carry]

end AfterAmp

/-- Where an amplifier of the active circuit run has suspended or halted with an output, the circuit goes on with
that word. -/
theorem step_of_circuit_word {s : Block W} {i : Nat} {a : Amplifier W} {v : Word W} (hact : s.activity = .circuit i)
    (ha : s.circuit.amps[i]? = some a) (hst : a.engine.status = .suspended ∨ a.engine.status = .halted)
    (hl : a.lastOut = some v) : step (.of s) = .next (.of ((s.putAmp i a.settle).afterAmp i (.ok v))) := by
  have hrun : a.engine.status ≠ .running := by obtain h | h := hst <;> simp [h]
  have hnf : a.engine.status ≠ .faulted := by obtain h | h := hst <;> simp [h]
  rw [step_of_circuit_return hact ha hrun, Amplifier.result_of_lastOut hnf hl]

/-- Settles O51: amplifier `i` is settled and amplifier `i + 1` called with its word. -/
theorem circuitCarriesTheSignalForward : Obligations.CircuitCarriesTheSignalForward := by
  intro W s i a b v hact ha hb hst hl
  have hlast : i + 1 < (s.putAmp i a.settle).circuit.amps.length := by
    obtain ⟨hlt, -⟩ := List.getElem?_eq_some_iff.1 hb
    simpa [Block.putAmp] using hlt
  rw [step_of_circuit_word hact ha hst hl, Block.afterAmp_next v hlast]
  have hself : ((s.putAmp i a.settle).carry v).circuit.amps[i]? = some a.settle := Block.putAmp_self ha
  have hother (j : Nat) (hj : j ≠ i) :
      ((s.putAmp i a.settle).carry v).circuit.amps[j]? = s.circuit.amps[j]? := List.getElem?_set_ne hj.symm
  refine ⟨_, rfl, rfl, rfl, rfl, rfl, rfl, rfl, ?_, ?_, fun j hi hi' => ?_⟩ <;> rw [Block.callAmp_amps]
  · rw [if_neg (by omega), hself]; rfl
  · rw [if_pos rfl, hother _ (by omega), hb]; rfl
  · rw [if_neg (Ne.symm hi'), hother _ hi]

/-! ### The end of a pass -/

section EndPass
variable {c : Circuit W} {s : Block W}

theorem Circuit.haltedSet_pairwise (c : Circuit W) : c.haltedSet.Pairwise (· < ·) :=
  List.pairwise_lt_range.filter _

theorem Circuit.haltedSet_eq_nil : c.haltedSet = [] ↔ ∀ b ∈ c.amps, b.engine.status ≠ .halted := by
  simp only [List.eq_nil_iff_forall_not_mem, Circuit.mem_haltedSet]
  constructor
  · intro h b hb hst
    obtain ⟨j, hj⟩ := List.mem_iff_getElem?.1 hb
    exact h j ⟨b, hj, hst⟩
  · rintro h j ⟨b, hj, hst⟩
    exact h b (List.mem_of_getElem? hj) hst

theorem Circuit.haltedSet_eq_range :
    c.haltedSet = List.range c.amps.length ↔ ∀ b ∈ c.amps, b.engine.status = .halted := by
  constructor
  · intro h b hb
    obtain ⟨j, hj⟩ := List.mem_iff_getElem?.1 hb
    have hmem : j ∈ c.haltedSet := by
      rw [h]; exact List.mem_range.2 (List.getElem?_eq_some_iff.1 hj).1
    obtain ⟨b', hj', hb'⟩ := Circuit.mem_haltedSet.1 hmem
    cases hj.symm.trans hj'
    exact hb'
  · intro h
    refine List.filter_eq_self.2 fun j hj => ?_
    have hj := List.getElem?_eq_getElem (List.mem_range.1 hj)
    simp [hj, h _ (List.mem_of_getElem? hj)]

theorem Block.endPass_of_not_feedback (h : s.circuit.fbMode = false) :
    s.endPass = s.answer (.word s.circuit.signal) := by
  simp [Block.endPass, h]

theorem Block.endPass_of_all_halted (h : s.circuit.fbMode = true)
    (hall : ∀ b ∈ s.circuit.amps, b.engine.status = .halted) : s.endPass = s.answer (.word s.circuit.signal) := by
  simp [Block.endPass, h, Circuit.haltedSet_eq_range.2 hall]

theorem Block.endPass_of_none_halted (h : s.circuit.fbMode = true) (hne : s.circuit.amps ≠ [])
    (hnone : ∀ b ∈ s.circuit.amps, b.engine.status ≠ .halted) : s.endPass = s.callAmp 0 := by
  simp [Block.endPass, h, Circuit.haltedSet_eq_nil.2 hnone, hne]

theorem Block.endPass_of_some_halted (h : s.circuit.fbMode = true)
    (hsome : ∃ b ∈ s.circuit.amps, b.engine.status = .halted)
    (hnot : ∃ b ∈ s.circuit.amps, b.engine.status ≠ .halted) :
    s.endPass = s.answer (.fault (.ringDesync s.circuit.haltedSet)) := by
  have hall : s.circuit.haltedSet ≠ List.range s.circuit.amps.length := fun he => by
    obtain ⟨b, hb, hst⟩ := hnot
    exact hst (Circuit.haltedSet_eq_range.1 he b hb)
  have hnone : s.circuit.haltedSet ≠ [] := fun he => by
    obtain ⟨b, hb, hst⟩ := hsome
    exact Circuit.haltedSet_eq_nil.1 he b hb hst
  simp [Block.endPass, h, hall, hnone]

end EndPass

/-! Settling an amplifier changes no engine, so the settled ring asks the same of its engines as the ring before. -/

section Settle
variable {amps : List (Amplifier W)} {i : Nat} {a : Amplifier W} (ha : amps[i]? = some a) (p : Engine W → Prop)
include ha

theorem exists_engine_set_settle (j : Nat) :
    (∃ b, (amps.set i a.settle)[j]? = some b ∧ p b.engine) ↔ ∃ b, amps[j]? = some b ∧ p b.engine := by
  obtain rfl | hj := eq_or_ne i j
  · obtain ⟨hlt, rfl⟩ := List.getElem?_eq_some_iff.1 ha
    simp [hlt]
  · rw [List.getElem?_set_ne hj]

theorem exists_mem_engine_set_settle :
    (∃ b ∈ amps.set i a.settle, p b.engine) ↔ ∃ b ∈ amps, p b.engine := by
  have hpos (l : List (Amplifier W)) :
      (∃ b ∈ l, p b.engine) ↔ ∃ (j : Nat) (b : Amplifier W), l[j]? = some b ∧ p b.engine := by
    simp only [List.mem_iff_getElem?]
    exact ⟨fun ⟨b, ⟨j, hj⟩, hb⟩ => ⟨j, b, hj, hb⟩, fun ⟨j, b, hj, hb⟩ => ⟨b, ⟨j, hj⟩, hb⟩⟩
  rw [hpos, hpos]
  exact exists_congr fun j => exists_engine_set_settle ha p j

theorem forall_mem_engine_set_settle :
    (∀ b ∈ amps.set i a.settle, p b.engine) ↔ ∀ b ∈ amps, p b.engine := by
  have h := (exists_mem_engine_set_settle ha (fun e => ¬ p e)).not
  push Not at h
  exact h

end Settle

/-- Settles O52: the end of the pass over the ring whose last amplifier is settled, in its four cases. -/
theorem circuitPassEnds : Obligations.CircuitPassEnds := by
  intro W s i a v hact ha hlast hst hl amps back
  let u : Block W := (s.putAmp i a.settle).carry v
  have hamps : u.circuit.amps = s.circuit.amps.set i a.settle := rfl
  have hstep : step (.of s) = .next (.of u.endPass) := by
    rw [step_of_circuit_word hact ha hst hl, Block.afterAmp_last v (by simpa [Block.putAmp] using hlast)]
  have hmode : u.circuit.fbMode = s.circuit.fbMode := rfl
  rw [hstep, ← hmode]
  refine ⟨fun hfb => ?_, fun hfb hall => ?_, fun hfb hnone => ?_, fun hfb hsome hnot => ?_⟩
  · rw [Block.endPass_of_not_feedback hfb]; rfl
  · rw [Block.endPass_of_all_halted hfb ((forall_mem_engine_set_settle ha (·.status = .halted)).2 hall)]; rfl
  · have hnone := (forall_mem_engine_set_settle ha (·.status ≠ .halted)).2 hnone
    have hlen : 0 < u.circuit.amps.length := by rw [hamps, List.length_set]; omega
    obtain ⟨b, hb⟩ : ∃ b, u.circuit.amps[0]? = some b := ⟨_, List.getElem?_eq_getElem hlen⟩
    refine ⟨b, hb, ?_⟩
    rw [Block.endPass_of_none_halted hfb (List.length_pos_iff.1 hlen) hnone, Block.callAmp, Block.mapAmp_eq_putAmp hb]
    rfl
  · have hsome := (exists_mem_engine_set_settle ha (·.status = .halted)).2 hsome
    have hnot := (exists_mem_engine_set_settle ha (·.status ≠ .halted)).2 hnot
    refine ⟨u.circuit.haltedSet, ?_, u.circuit.haltedSet_pairwise, fun j => ?_⟩
    · rw [Block.endPass_of_some_halted hfb hsome hnot]; rfl
    · rw [Circuit.mem_haltedSet]
      exact exists_engine_set_settle ha (·.status = .halted) j

end Sys2Proof.Machine
end

section
/-! PROOFS. What a cycle leaves alone (20_memory.md R57, 41_arithmetic.md to 45_amplifier.md): a cycle of a ring's
engine replaces that amplifier, by one that depends on it alone, and a cycle of the host's engine replaces the host's
side. -/

namespace Sys2Proof.Machine

variable {W : Nat}

/-! ### The width -/

theorem exec_width {s t : State} {i : Instr} (h : exec i s = .next t) : t.width = s.width := by
  cases i with
  | add m1 m2 | mul m1 m2 | lt m1 m2 | eq m1 m2 | jt m1 m2 | jf m1 m2 => exact Block.execute_width h
  | hlt => exact Block.execute_width (f := fun e => .ok e.halt) h
  | inp =>
    refine Block.onRunning_width h fun id e t h => ?_
    split at h
    · cases h; rfl
    · split at h <;> cases h <;> rfl
  | out m =>
    refine Block.onRunning_width h fun id e t h => ?_
    split at h <;> cases h <;> rfl

theorem Block.hostStep_width {s : Block W} {t : State} (h : s.hostStep = .next t) : t.width = W := by
  unfold Block.hostStep at h
  split at h
  · cases h; rfl
  · exact Block.serve_width h

theorem step_width {s t : State} (h : step s = .next t) : t.width = s.width := by
  unfold step at h
  split at h
  · exact Block.hostStep_width h
  · split at h
    · cases h
    · split at h
      · split at h
        · exact exec_width h
        · cases h; rfl
      · exact Block.returnStep_width h

/-- Settles O29: every answer is built from the block it was given, at that block's width. -/
theorem widthNeverChanges : Obligations.WidthNeverChanges := fun _ _ => ⟨fun _ => exec_width, step_width⟩

/-! ### Frames of the parts that are replaced -/

section Frame
variable {s : Block W} {id : EngineId} {e e' : Engine W}

theorem keepsAllButEngines_setEngine : KeepsAllButEngines s (s.setEngine id e') := by
  refine ⟨by simp, by simp, by simp, by simp, by simp, by simp, by simp, by simp, ?_, fun j a ha => ?_⟩
  · cases id <;> simp
  · cases id with
    | host => exact ⟨a, ha, rfl⟩
    | ring i =>
      obtain rfl | hij := eq_or_ne i j
      · exact ⟨{ a with engine := e' }, by simp [ha], rfl⟩
      · exact ⟨a, by simp [hij, ha], rfl⟩

theorem keepsOtherEngines_setEngine : KeepsOtherEngines s (s.setEngine id e') id :=
  fun _ => Block.engine?_setEngine_other

variable {i : Nat} {a b : Amplifier W}

theorem Block.putAmp_other {j : Nat} (h : j ≠ i) : (s.putAmp i b).circuit.amps[j]? = s.circuit.amps[j]? :=
  List.getElem?_set_ne h.symm

theorem Block.engine?_putAmp_self (ha : s.circuit.amps[i]? = some a) :
    (s.putAmp i b).engine? (.ring i) = some b.engine := by
  simp [Block.engine?, Block.putAmp_self ha]

theorem keepsOtherEngines_putAmp : KeepsOtherEngines s (s.putAmp i b) (.ring i) := by
  intro id hid
  cases id with
  | host => rfl
  | ring j =>
    have hj : j ≠ i := fun h => hid (congrArg _ h)
    simp [Block.engine?, Block.putAmp_other hj]

/-- After an amplifier was replaced, every amplifier is in a reflexive relation to the one before if that one is. -/
theorem Block.putAmp_keeps {R : Amplifier W → Amplifier W → Prop} (hrefl : ∀ a, R a a)
    (ha : s.circuit.amps[i]? = some a) (hb : R b a) {j : Nat} {c : Amplifier W} (hc : s.circuit.amps[j]? = some c) :
    ∃ c', (s.putAmp i b).circuit.amps[j]? = some c' ∧ R c' c ∧ (EngineId.ring i ≠ .ring j → c' = c) := by
  obtain rfl | hj := eq_or_ne j i
  · cases ha.symm.trans hc
    exact ⟨b, Block.putAmp_self ha, hb, fun h => absurd rfl h⟩
  · exact ⟨c, (Block.putAmp_other hj).trans hc, hrefl c, fun _ => rfl⟩

theorem Executes.exists_amp (h : Executes s (.ring i) e) : ∃ a, s.circuit.amps[i]? = some a ∧ a.engine = e := by
  obtain ⟨-, he, -⟩ := h
  simpa [Block.engine?] using he

end Frame

/-! ### Instructions that store at a destination parameter -/

/-- The engine has stored at most one word, at the address destination parameter `k` names; or it has faulted and stored
nothing. -/
def Engine.StoresAt (e e' : Engine W) (k : Nat) : Prop :=
  e'.fb = e.fb ∧ e'.mem.length = e.mem.length ∧
  (∀ d, e.destination k = .ok d → ∀ x, x ≠ d → e'.mem.read x = e.mem.read x) ∧
  (e'.status = .running ∧ e'.fault = e.fault ∨ e'.status = .faulted ∧ e'.pc = e.pc ∧ KeepsStorage e e')

theorem Engine.storesAt_faulted (e : Engine W) (k : Nat) (r : FaultRecord W) :
    e.StoresAt { e with status := .faulted, fault := some r } k :=
  ⟨rfl, rfl, fun _ _ _ _ => rfl, .inr ⟨rfl, rfl, fun _ => rfl⟩⟩

theorem Engine.storesAt_write {e : Engine W} {k : Nat} {d : Int} (hrun : e.status = .running)
    (hd : e.destination k = .ok d) (v : Word W) (pc : Int) :
    e.StoresAt { e with mem := e.mem.write d v, pc := pc } k := by
  refine ⟨rfl, Memory.length_write e.mem d v, fun d' hd' x hx => ?_, .inl ⟨hrun, rfl⟩⟩
  cases hd.symm.trans hd'
  exact Memory.read_write_other hx

/-- Settles O30: format F3 replaces the executing engine by one that has stored at parameter 3 or has faulted. -/
theorem frameOfArithmeticAndCompare : Obligations.FrameOfArithmeticAndCompare := by
  intro W s t id e i m1 m2 hi hex hx
  have ⟨_, he, hrun⟩ := hex
  obtain ⟨f, hf⟩ := exec_of_mem_binary (W := W) hi
  have hframe : ∃ e', t = s.setEngine id e' ∧ e.StoresAt e' 3 := by
    obtain ⟨a, b, d, -, -, hd, hb⟩ | ⟨r, -, hb⟩ := Engine.binary_cases f m1 m2 e
    · rw [hf, Block.execute_ok hex hb] at hx
      cases hx
      exact ⟨_, rfl, Engine.storesAt_write hrun hd _ _⟩
    · rw [hf, Block.execute_error hex hb] at hx
      cases hx
      exact ⟨_, rfl, e.storesAt_faulted 3 r⟩
  obtain ⟨e', rfl, hst⟩ := hframe
  exact ⟨keepsAllButEngines_setEngine, keepsOtherEngines_setEngine, e', Block.engine?_setEngine_self he, hst⟩

/-! ### IN -/

/-- Every answer of IN on the host's engine: only the host's side and the count of free values can change, and there not
the sink. -/
theorem exec_inp_host {s t : Block W} {e : Engine W} (h : Executes s .host e)
    (hx : exec .inp (.of s) = .next (.of t)) :
    ∃ host n, t = { s with host := host, freeCount := n } ∧ host.outputs = s.host.outputs ∧
      e.StoresAt host.engine 1 := by
  have ⟨_, _, hrun⟩ := h
  obtain ⟨r, hf⟩ | ⟨d, v, s', hd, hs, hw⟩ := exec_inp_cases h
  · rw [hf] at hx
    cases hx
    exact ⟨_, s.freeCount, rfl, rfl, e.storesAt_faulted 1 r⟩
  · rw [hw] at hx
    cases hx
    obtain ⟨inputs, n, rfl⟩ := Block.supply_host_changes hs
    exact ⟨_, n, rfl, rfl, Engine.storesAt_write hrun hd v _⟩

/-- Every answer of IN in an amplifier: only that amplifier's engine and `inState` can change. -/
theorem exec_inp_ring {s t : Block W} {i : Nat} {a : Amplifier W} (h : Executes s (.ring i) a.engine)
    (ha : s.circuit.amps[i]? = some a) (hx : exec .inp (.of s) = .next (.of t)) :
    ∃ b, t = s.putAmp i b ∧ { b with engine := a.engine, inState := a.inState } = a ∧
      a.engine.StoresAt b.engine 1 := by
  have ⟨_, _, hrun⟩ := h
  obtain ⟨r, hf⟩ | ⟨d, v, s', hd, hs, hw⟩ := exec_inp_cases h
  · rw [hf, Block.setEngine_eq_putAmp ha] at hx
    cases hx
    exact ⟨_, rfl, rfl, a.engine.storesAt_faulted 1 r⟩
  · obtain ⟨a', hsup, rfl⟩ := Block.supply_ring_changes ha hs
    rw [hw, Block.setEngine_putAmp ha] at hx
    cases hx
    obtain ⟨hkeep, -⟩ := Amplifier.supply_keeps hsup
    refine ⟨_, rfl, ?_, Engine.storesAt_write hrun hd v _⟩
    rw [← hkeep]

/-- Settles O31: IN replaces the host's side or the executing amplifier. -/
theorem frameOfInput : Obligations.FrameOfInput := by
  intro W s t id e hex hx
  cases id with
  | host =>
    obtain ⟨host, n, rfl, hout, hst⟩ := exec_inp_host hex hx
    refine ⟨fun id hid => ?_, hout, rfl, rfl, rfl, fun _ => rfl, fun h => absurd rfl h,
      fun j a ha => ⟨a, ha, rfl, fun _ => rfl⟩, _, rfl, hst⟩
    cases id with
    | host => exact absurd rfl hid
    | ring j => rfl
  | ring i =>
    obtain ⟨a, ha, rfl⟩ := hex.exists_amp
    obtain ⟨b, rfl, hb, hst⟩ := exec_inp_ring hex ha hx
    exact ⟨keepsOtherEngines_putAmp, rfl, rfl, rfl, rfl, nofun,
      fun _ => ⟨rfl, rfl, rfl, rfl, by simp [Block.putAmp]⟩,
      fun j c hc => Block.putAmp_keeps (R := fun b a => { b with engine := a.engine, inState := a.inState } = a)
        (fun _ => rfl) ha hb hc, _, Block.engine?_putAmp_self ha, hst⟩

/-! ### OUT -/

/-- The engine has stored nothing, and runs on, is suspended at its instruction, or has faulted there. -/
def Engine.Emits (e e' : Engine W) : Prop :=
  e'.mem = e.mem ∧ e'.fb = e.fb ∧
  (e'.status = .running ∧ e'.fault = e.fault ∨ e'.status = .suspended ∧ e'.fault = e.fault ∧ e'.pc = e.pc ∨
    e'.status = .faulted ∧ e'.pc = e.pc)

theorem Engine.emits_faulted (e : Engine W) (r : FaultRecord W) :
    e.Emits { e with status := .faulted, fault := some r } := ⟨rfl, rfl, .inr (.inr ⟨rfl, rfl⟩)⟩

theorem Engine.emits_word {e : Engine W} (hrun : e.status = .running) :
    e.Emits (if e.fb then { e with status := .suspended } else { e with pc := e.pc + 2 }) := by
  split
  · exact ⟨rfl, rfl, .inr (.inl ⟨rfl, rfl, rfl⟩)⟩
  · exact ⟨rfl, rfl, .inl ⟨hrun, rfl⟩⟩

/-- Every answer of OUT on the host's engine: only the host's side can change, and there not the source. -/
theorem exec_out_host {s t : Block W} {e : Engine W} {m : Mode} (h : Executes s .host e)
    (hx : exec (.out m) (.of s) = .next (.of t)) :
    ∃ host, t = { s with host := host } ∧ host.inputs = s.host.inputs ∧ e.Emits host.engine := by
  have ⟨_, _, hrun⟩ := h
  obtain ⟨r, hf⟩ | ⟨v, hv⟩ := exec_out_cases h m
  · rw [hf] at hx
    cases hx
    exact ⟨_, rfl, rfl, e.emits_faulted r⟩
  · rw [hv] at hx
    cases hx
    exact ⟨_, rfl, rfl, Engine.emits_word hrun⟩

/-- Every answer of OUT in an amplifier: only that amplifier's engine and `lastOut` can change. -/
theorem exec_out_ring {s t : Block W} {i : Nat} {a : Amplifier W} {m : Mode} (h : Executes s (.ring i) a.engine)
    (ha : s.circuit.amps[i]? = some a) (hx : exec (.out m) (.of s) = .next (.of t)) :
    ∃ b, t = s.putAmp i b ∧ { b with engine := a.engine, lastOut := a.lastOut } = a ∧
      a.engine.Emits b.engine := by
  have ⟨_, _, hrun⟩ := h
  obtain ⟨r, hf⟩ | ⟨v, hv⟩ := exec_out_cases h m
  · rw [hf, Block.setEngine_eq_putAmp ha] at hx
    cases hx
    exact ⟨_, rfl, rfl, a.engine.emits_faulted r⟩
  · rw [hv, Block.consume_ring ha, Block.setEngine_putAmp ha] at hx
    cases hx
    exact ⟨_, rfl, rfl, Engine.emits_word hrun⟩

/-- Settles O32: OUT replaces the host's side or the executing amplifier. -/
theorem frameOfOutput : Obligations.FrameOfOutput := by
  intro W s t id e m hex hx
  cases id with
  | host =>
    obtain ⟨host, rfl, hin, hst⟩ := exec_out_host hex hx
    refine ⟨fun id hid => ?_, hin, rfl, rfl, rfl, rfl, fun _ => rfl, fun h => absurd rfl h,
      fun j a ha => ⟨a, ha, rfl, fun _ => rfl⟩, _, rfl, hst⟩
    cases id with
    | host => exact absurd rfl hid
    | ring j => rfl
  | ring i =>
    obtain ⟨a, ha, rfl⟩ := hex.exists_amp
    obtain ⟨b, rfl, hb, hst⟩ := exec_out_ring hex ha hx
    exact ⟨keepsOtherEngines_putAmp, rfl, rfl, rfl, rfl, rfl, nofun,
      fun _ => ⟨rfl, rfl, rfl, by simp [Block.putAmp]⟩,
      fun j c hc => Block.putAmp_keeps (R := fun b a => { b with engine := a.engine, lastOut := a.lastOut } = a)
        (fun _ => rfl) ha hb hc, _, Block.engine?_putAmp_self ha, hst⟩

/-! ### Control transfer -/

/-- Settles O33: a jump changes `pc` or faults, and HLT halts. -/
theorem frameOfControlTransfer : Obligations.FrameOfControlTransfer := by
  intro W s t id e i m1 m2 hi hex hx
  have ⟨_, he, hrun⟩ := hex
  have hframe : ∃ e', t = s.setEngine id e' ∧ e'.mem = e.mem ∧ e'.fb = e.fb ∧
      (e'.status = .running ∧ e'.fault = e.fault ∨ i = .hlt ∧ e'.status = .halted ∧ e'.fault = e.fault ∨
        e'.status = .faulted ∧ e'.pc = e.pc) := by
    by_cases hj : i ∈ [Instr.jt m1 m2, .jf m1 m2]
    · obtain ⟨taken, hf⟩ := exec_of_mem_branch (W := W) hj
      obtain ⟨c, p, hc, hp, -⟩ | ⟨r, -, hb⟩ := Engine.branch_cases taken m1 m2 e
      · rw [hf, Block.execute_ok hex
          (Engine.branch_of_resolved taken (Engine.operand_ok hc) (Engine.operand_ok hp))] at hx
        cases hx
        exact ⟨_, rfl, rfl, rfl, .inl ⟨hrun, rfl⟩⟩
      · rw [hf, Block.execute_error hex hb] at hx
        cases hx
        exact ⟨_, rfl, rfl, rfl, .inr (.inr ⟨rfl, rfl⟩)⟩
    · obtain rfl : i = .hlt := by
        simp only [List.mem_cons, List.not_mem_nil, or_false] at hi hj
        tauto
      rw [haltStopsAtTheSentinel W s id e hex] at hx
      cases hx
      exact ⟨_, rfl, rfl, rfl, .inr (.inl ⟨rfl, rfl, rfl⟩)⟩
  obtain ⟨e', rfl, hst⟩ := hframe
  exact ⟨keepsAllButEngines_setEngine, keepsOtherEngines_setEngine, e', Block.engine?_setEngine_self he, hst⟩

/-! ### One unit per cycle -/

section Ring
variable {a : Amplifier W} (hrun : a.engine.status = .running) (i : Nat)
include hrun

theorem execute_ring (f : Engine W → Except (FaultRecord W) (Engine W)) :
    ∃ b, ∀ s : Block W, s.activity.engineId = some (.ring i) → s.circuit.amps[i]? = some a →
      s.execute f = .next (.of (s.putAmp i b)) :=
  ⟨_, fun s hact ha => by
    rw [Block.execute_of_executes (executes_ring hact ha hrun), Block.setEngine_eq_putAmp ha]⟩

/-- What an instruction makes of the executing amplifier is one amplifier, whatever block it stands in. -/
theorem exec_ring (ins : Instr) :
    ∃ b, ∀ s : Block W, s.activity.engineId = some (.ring i) → s.circuit.amps[i]? = some a →
      exec ins (.of s) = .next (.of (s.putAmp i b)) := by
  obtain ⟨m1, m2, hi⟩ | ⟨m1, m2, hi⟩ | rfl | rfl | ⟨m, rfl⟩ := Instr.cases_of_format ins
  · obtain ⟨f, hf⟩ := exec_of_mem_binary (W := W) hi
    simp only [hf]
    exact execute_ring hrun i _
  · obtain ⟨taken, hf⟩ := exec_of_mem_branch (W := W) hi
    simp only [hf]
    exact execute_ring hrun i _
  · exact execute_ring hrun i fun e => .ok e.halt
  · cases hd : a.engine.destination 1 with
    | error r =>
      exact ⟨_, fun s hact ha => by
        rw [exec_inp_of_destinationFails (executes_ring hact ha hrun) (Engine.destination_error hd),
          Block.setEngine_eq_putAmp ha]⟩
    | ok d =>
      have hdest := Engine.destination_ok hd
      cases hs : a.supply with
      | error r =>
        exact ⟨_, fun s hact ha => by
          rw [exec_inp_of_supply_error (executes_ring hact ha hrun) hdest (Block.supply_ring_error ha hs),
            Block.setEngine_eq_putAmp ha]⟩
      | ok p =>
        exact ⟨_, fun s hact ha => by
          rw [exec_inp_of_supply (executes_ring hact ha hrun) hdest (Block.supply_ring_ok ha hs),
            Block.setEngine_putAmp ha]⟩
  · cases hv : a.engine.operand m 1 with
    | error r =>
      exact ⟨_, fun s hact ha => by
        rw [exec_out_of_sourceFails (executes_ring hact ha hrun) (Engine.operand_error hv),
          Block.setEngine_eq_putAmp ha]⟩
    | ok v =>
      exact ⟨_, fun s hact ha => by
        rw [exec_out_of_sourceIs (executes_ring hact ha hrun) (Engine.operand_ok hv), Block.consume_ring ha,
          Block.setEngine_putAmp ha]⟩

/-- What a cycle makes of the executing amplifier is one amplifier, whatever block it stands in. -/
theorem step_ring :
    ∃ b, ∀ s : Block W, s.activity.engineId = some (.ring i) → s.circuit.amps[i]? = some a →
      step (.of s) = .next (.of (s.putAmp i b)) := by
  cases hf : a.engine.fetch with
  | ok ins =>
    obtain ⟨b, hb⟩ := exec_ring hrun i ins
    exact ⟨b, fun s hact ha => (step_of_fetch_ok (executes_ring hact ha hrun) hf).trans (hb s hact ha)⟩
  | error r =>
    exact ⟨_, fun s hact ha => by
      rw [step_of_fetch_error (executes_ring hact ha hrun) hf, Block.setEngine_eq_putAmp ha]⟩

end Ring

/-- Settles O35: both steps replace the amplifier by the same one. -/
theorem cycleReadsItsOwnUnitOnly : Obligations.CycleReadsItsOwnUnitOnly := by
  intro W s s' t i e hex hex' hagree hstep
  obtain ⟨a, ha, rfl⟩ := hex.exists_amp
  obtain ⟨hact, -, hrun⟩ := hex
  obtain ⟨hact', -, -⟩ := hex'
  have ha' : s'.circuit.amps[i]? = some a := hagree ▸ ha
  obtain ⟨b, hb⟩ := step_ring hrun i
  rw [hb s hact ha] at hstep
  cases hstep
  exact ⟨s'.putAmp i b, hb s' hact' ha', by rw [Block.putAmp_self ha, Block.putAmp_self ha']⟩

end Sys2Proof.Machine
end

section
/-! PROOFS. What a step can do to an engine, said once, where the step is no cycle: the return of a call, or a
host call (40_engine_cycle.md R88 to R95). But for the calls that build an engine anew, it is an `Engine.Move`. -/

namespace Sys2Proof.Machine

variable {W : Nat}

/-! ### The invariant of an engine -/

section EngineInv
variable {e e' : Engine W} {r : FaultRecord W}

/-- A fault record speaks of the engine's `pc` and of the bounds of its storage alone. -/
theorem FaultRecord.Describes.congr (h : r.Describes e) (hpc : e'.pc = e.pc) (hlen : e'.mem.length = e.mem.length) :
    r.Describes e' := by
  cases r with
  | outOfRange a pc x => simpa [FaultRecord.Describes, Memory.inRange, hpc, hlen] using h
  | unsupportedOpcode x w pc | illegalMode d k pc => simpa [FaultRecord.Describes, hpc] using h
  | callerMisuse m | noOutput i | ringDesync l => exact h

theorem Memory.wf_congr {m m' : Memory W} (h : m'.length = m.length) : m'.wf = m.wf := by simp [Memory.wf, h]

theorem Engine.Inv.wf (h : e.Inv) : e.mem.wf = true := h.1

theorem Engine.Inv.fault_eq_none (h : e.Inv) (hst : e.status ≠ .faulted) : e.fault = none := by
  obtain ⟨-, hf, -⟩ := h
  rw [← Option.not_isSome_iff_eq_none, ← hf]
  exact hst

theorem Engine.inv_of_running (hwf : e.mem.wf = true) (hst : e.status = .running) (hf : e.fault = none) : e.Inv := by
  simp [Engine.Inv, hwf, hst, hf]

theorem Engine.inv_of_faulted (hwf : e.mem.wf = true) (hst : e.status = .faulted) (hf : e.fault = some r)
    (hr : r.Describes e) : e.Inv := by
  simp [Engine.Inv, hwf, hst, hf, hr]

theorem Engine.Inv.jump (h : e.Inv) (hst : e.status = .running) (p : Int) : (e.jump p).Inv :=
  Engine.inv_of_running h.wf hst (h.fault_eq_none (by simp [hst]))

theorem Engine.Inv.wake (h : e.Inv) (hst : e.status = .suspended) : e.wake.Inv :=
  Engine.inv_of_running h.wf rfl (h.fault_eq_none (by simp [hst]))

theorem Engine.Inv.halt (h : e.Inv) (hst : e.status = .running) : e.halt.Inv := by
  have hf : e.fault = none := h.fault_eq_none (by simp [hst])
  exact ⟨h.wf, by simp [hf], by simp [hf], fun _ => rfl, by simp⟩

theorem Engine.Inv.suspend (h : e.Inv) (hst : e.status = .running) (h0 : 0 ≤ e.pc) (h1 : e.pc + 1 < e.mem.length) :
    e.suspend.Inv := by
  have hf : e.fault = none := h.fault_eq_none (by simp [hst])
  exact ⟨h.wf, by simp [hf], by simp [hf], by simp, fun _ => ⟨h0, h1⟩⟩

/-- Storing, and setting the feedback flag, keep the invariant: it does not speak of the words or of the flag. -/
theorem Engine.Inv.congr (h : e.Inv) (hlen : e'.mem.length = e.mem.length) (hpc : e'.pc = e.pc)
    (hst : e'.status = e.status) (hf : e'.fault = e.fault) : e'.Inv := by
  obtain ⟨hwf, hiff, hdesc, hhalt, hsusp⟩ := h
  refine ⟨(Memory.wf_congr hlen).trans hwf, ?_, fun r hr => ?_, ?_, ?_⟩
  · rw [hst, hf]; exact hiff
  · rw [hf] at hr; exact (hdesc r hr).congr hpc hlen
  · rw [hst, hpc, hlen]; exact hhalt
  · rw [hst, hpc, hlen]; exact hsusp

theorem Engine.Inv.fault (h : e.Inv) (hr : r.Describes e) :
    ({ e with status := .faulted, fault := some r } : Engine W).Inv :=
  Engine.inv_of_faulted h.wf rfl rfl (hr.congr rfl rfl)

end EngineInv

/-! ### A call or return that does not build the engine anew -/

/-- What a call or return that does not build an engine anew can make of it: it comes to no new Suspended or Halted
status, a Faulted one keeps its record and `pc`, and the storage keeps its length. -/
structure Engine.Move (e e' : Engine W) : Prop where
  inv : e.Inv → e'.Inv
  length : e'.mem.length = e.mem.length
  suspended : e'.status = .suspended → e.status = .suspended
  halted : e'.status = .halted → e.status = .halted
  faulted : e.status = .faulted → e'.status = .faulted ∧ e'.fault = e.fault ∧ e'.pc = e.pc
  stopped : e.status = .halted → e'.status = .halted ∨ e'.status = .faulted

section EngineMove
variable {e e' e'' : Engine W}

theorem Engine.Move.refl (e : Engine W) : e.Move e :=
  ⟨id, rfl, id, id, fun h => ⟨h, rfl, rfl⟩, .inl⟩

theorem Engine.Move.of_self (h : e' = e) : e.Move e' := h ▸ .refl e

theorem Engine.Move.trans (h : e.Move e') (h' : e'.Move e'') : e.Move e'' where
  inv hi := h'.inv (h.inv hi)
  length := h'.length.trans h.length
  suspended hs := h.suspended (h'.suspended hs)
  halted hs := h.halted (h'.halted hs)
  faulted hs := by
    obtain ⟨hs', hf, hp⟩ := h.faulted hs
    obtain ⟨hs'', hf', hp'⟩ := h'.faulted hs'
    exact ⟨hs'', hf'.trans hf, hp'.trans hp⟩
  stopped hs := by
    obtain hs' | hs' := h.stopped hs
    · exact h'.stopped hs'
    · exact .inr (h'.faulted hs').1

/-- A change of words or of the feedback flag alone. -/
theorem Engine.Move.of_eq (hlen : e'.mem.length = e.mem.length) (hpc : e'.pc = e.pc) (hst : e'.status = e.status)
    (hf : e'.fault = e.fault) : e.Move e' where
  inv h := h.congr hlen hpc hst hf
  length := hlen
  suspended h := hst ▸ h
  halted h := hst ▸ h
  faulted h := ⟨hst.trans h, hf, hpc⟩
  stopped h := .inl (hst.trans h)

theorem Engine.move_wake (h : e.status = .suspended) : e.Move e.wake where
  inv hi := hi.wake h
  length := rfl
  suspended := nofun
  halted := nofun
  faulted hf := by simp [h] at hf
  stopped hs := by simp [h] at hs

theorem Engine.move_raise {r : FaultRecord W} (hr : r.Describes e) : e.Move (e.raise r) := by
  by_cases hf : e.status = .faulted
  · rw [Engine.raise_of_faulted _ _ hf]; exact .refl e
  · rw [Engine.raise_of_not_faulted _ _ hf]
    exact { inv := fun hi => hi.fault hr, length := rfl, suspended := nofun, halted := nofun
            faulted := fun h => absurd h hf, stopped := fun _ => .inr rfl }

end EngineMove

/-- What a call or return that does not build the amplifier's engine anew can make of the amplifier. -/
structure Amplifier.Move (a b : Amplifier W) : Prop where
  engine : a.engine.Move b.engine
  image : b.image = a.image
  lastOut : b.lastOut = a.lastOut
  finished : b.inState = .finished →
    a.inState = .finished ∨ b.engine.status = .halted ∨ b.engine.status = .faulted

section AmplifierMove
variable {a b c : Amplifier W}

theorem Amplifier.Move.refl (a : Amplifier W) : a.Move a := ⟨.refl _, rfl, rfl, .inl⟩

theorem Amplifier.Move.trans (h : a.Move b) (h' : b.Move c) : a.Move c where
  engine := h.engine.trans h'.engine
  image := h'.image.trans h.image
  lastOut := h'.lastOut.trans h.lastOut
  finished hc := by
    obtain hb | hc := h'.finished hc
    · obtain ha | hh | hf := h.finished hb
      · exact .inl ha
      · exact .inr (h'.engine.stopped hh)
      · exact .inr (.inr (h'.engine.faulted hf).1)
    · exact .inr hc

/-- The amplifier's invariant is kept: a Finished one's engine executes nothing more. -/
theorem Amplifier.Move.inv (h : a.Move b) (hi : a.Inv) : b.Inv := by
  obtain ⟨he, hlen, hfin, hsusp⟩ := hi
  refine ⟨h.engine.inv he, ?_, fun hb => ?_, fun hb => ?_⟩
  · rw [h.engine.length, hlen, h.image]
  · obtain ha | hb := h.finished hb
    · obtain hh | hf := hfin ha
      · exact h.engine.stopped hh
      · exact .inr (h.engine.faulted hf).1
    · exact hb
  · rw [h.lastOut]
    exact hsusp (h.engine.suspended hb)

theorem Amplifier.move_engine {e : Engine W} (h : a.engine.Move e) : a.Move { a with engine := e } :=
  ⟨h, rfl, rfl, .inl⟩

theorem Amplifier.move_settle (a : Amplifier W) : a.Move a.settle where
  engine := .refl _
  image := rfl
  lastOut := rfl
  finished h := by
    by_cases hh : a.engine.status = .halted
    · exact .inr (.inl hh)
    · exact .inl (by simpa [Amplifier.settle, hh] using h)

theorem Amplifier.move_begin (a : Amplifier W) (x : Word W) : a.Move (a.begin x) := by
  refine ⟨?_, rfl, rfl, .inl⟩
  simp only [Amplifier.begin]
  split
  · exact Engine.move_wake ‹_›
  · exact .refl _

end AmplifierMove

/-- Every engine and amplifier of the block makes such a move. -/
structure Block.Moves (s t : Block W) : Prop where
  host : s.host.engine.Move t.host.engine
  ring : ∀ (i : Nat) (b : Amplifier W), t.circuit.amps[i]? = some b → ∃ a, s.circuit.amps[i]? = some a ∧ a.Move b

section Moves
variable {s t u : Block W}

theorem Block.Moves.of_eq (hhost : t.host.engine = s.host.engine) (hring : t.circuit.amps = s.circuit.amps) :
    s.Moves t :=
  ⟨hhost ▸ .refl _, fun _ b hb => ⟨b, hring ▸ hb, .refl b⟩⟩

theorem Block.Moves.refl (s : Block W) : s.Moves s := .of_eq rfl rfl

theorem Block.Moves.trans (h : s.Moves t) (h' : t.Moves u) : s.Moves u where
  host := h.host.trans h'.host
  ring i c hc := by
    obtain ⟨b, hb, hbc⟩ := h'.ring i c hc
    obtain ⟨a, ha, hab⟩ := h.ring i b hb
    exact ⟨a, ha, hab.trans hbc⟩

theorem Block.Moves.engine {id : EngineId} {e e' : Engine W} (h : s.Moves t) (he : s.engine? id = some e)
    (he' : t.engine? id = some e') : e.Move e' := by
  cases id with
  | host => cases he; cases he'; exact h.host
  | ring i =>
    obtain ⟨b, hb, rfl⟩ := Option.map_eq_some_iff.1 he'
    obtain ⟨a, ha, hab⟩ := h.ring i b hb
    obtain rfl : a.engine = e := by simpa [Block.engine?, ha] using he
    exact hab.engine

theorem Block.moves_putAmp {i : Nat} {a b : Amplifier W} (ha : s.circuit.amps[i]? = some a) (h : a.Move b) :
    s.Moves (s.putAmp i b) := by
  refine ⟨.refl _, fun j c hc => ?_⟩
  obtain rfl | hj := eq_or_ne j i
  · cases (Block.putAmp_self ha).symm.trans hc
    exact ⟨a, ha, h⟩
  · exact ⟨c, (Block.putAmp_other hj).symm.trans hc, .refl c⟩

theorem Block.moves_setEngine {id : EngineId} {e e' : Engine W} (he : s.engine? id = some e) (h : e.Move e') :
    s.Moves (s.setEngine id e') := by
  cases id with
  | host => cases he; exact ⟨h, fun _ b hb => ⟨b, hb, .refl b⟩⟩
  | ring i =>
    obtain ⟨a, ha, rfl⟩ := Option.map_eq_some_iff.1 he
    rw [Block.setEngine_eq_putAmp ha]
    exact Block.moves_putAmp ha (Amplifier.move_engine h)

theorem Block.moves_callAmp (s : Block W) (i : Nat) : s.Moves (s.callAmp i) := by
  refine ⟨.refl _, fun j b hb => ?_⟩
  rw [Block.callAmp_amps] at hb
  split at hb
  · obtain ⟨a, ha, rfl⟩ := Option.map_eq_some_iff.1 hb
    exact ⟨a, ha, a.move_begin _⟩
  · exact ⟨b, hb, .refl b⟩

theorem Block.moves_answer (s : Block W) (r : Reply W) : s.Moves (s.answer r) := .of_eq rfl rfl

/-! ### The return of a call -/

theorem Block.moves_endPass (s : Block W) : s.Moves s.endPass := by
  unfold Block.endPass
  dsimp only
  split_ifs
  · exact s.moves_answer _
  · exact s.moves_callAmp 0
  · exact s.moves_answer _
  · exact s.moves_answer _

theorem Block.moves_afterAmp (s : Block W) (i : Nat) (x : Except (FaultRecord W) (Word W)) :
    s.Moves (s.afterAmp i x) := by
  cases x with
  | error r => exact s.moves_answer _
  | ok v =>
    have hcarry : s.Moves (s.carry v) := .of_eq rfl rfl
    unfold Block.afterAmp
    dsimp only
    split
    · exact hcarry.trans (Block.moves_callAmp _ _)
    · exact hcarry.trans (Block.moves_endPass _)

/-- The return of an active call settles at most one amplifier and calls at most one. -/
theorem Block.returnStep_moves (h : s.returnStep = .next (.of t)) : s.Moves t := by
  unfold Block.returnStep at h
  split at h
  · cases h
  · split at h <;> cases h
    exact s.moves_answer _
  · split at h
    · cases h
    · rename_i a ha
      cases h
      rw [Block.mapAmp_eq_putAmp ha]
      exact (Block.moves_putAmp ha a.move_settle).trans (Block.moves_answer _ _)
  · split at h
    · cases h
    · rename_i a ha
      cases h
      rw [Block.mapAmp_eq_putAmp ha]
      exact (Block.moves_putAmp ha a.move_settle).trans (Block.moves_afterAmp _ _ _)

/-! ### The active call -/

section Activity
variable {id : EngineId} {i : Nat} {e : Engine W} {a : Amplifier W}

theorem Block.activityInv_answer (s : Block W) (r : Reply W) : (s.answer r).ActivityInv := trivial

theorem Block.activityInv_engine (hact : s.activity = .engine id) (h : (s.engine? id).isSome = true) :
    s.ActivityInv := by
  simp only [Block.ActivityInv, hact]
  exact h

theorem Block.activityInv_amplifier (hact : s.activity = .amplifier i) (ha : s.circuit.amps[i]? = some a)
    (hp : a.pending.isSome = true) : s.ActivityInv := by
  simp only [Block.ActivityInv, hact]
  exact ⟨a, ha, hp⟩

end Activity

/-! ### A call of the host

Each call that builds no engine anew moves every engine and amplifier, and leaves a call active only on a unit that
exists. -/

variable {id : EngineId}

/-- A call that ends at once. -/
theorem Block.Moves.answer (h : s.Moves u) (r : Reply W) : s.Moves (u.answer r) ∧ (u.answer r).ActivityInv :=
  ⟨h.trans (u.moves_answer r), u.activityInv_answer r⟩

/-- A call that enters an engine's loop. -/
theorem Block.Moves.enter {e : Engine W} (h : s.Moves u) (he : u.engine? id = some e) :
    s.Moves { u with activity := .engine id } ∧ ({ u with activity := .engine id } : Block W).ActivityInv := by
  have he' : ({ u with activity := .engine id } : Block W).engine? id = some e :=
    (Block.engine?_congr rfl rfl id).trans he
  exact ⟨h.trans (.of_eq rfl rfl), Block.activityInv_engine rfl (by simp [he'])⟩

theorem Block.hostFault_moves {e : Engine W} {r : FaultRecord W} (he : s.engine? id = some e) (hr : r.Describes e)
    (h : s.hostFault id e r = .next (.of t)) : s.Moves t ∧ t.ActivityInv := by
  cases h
  exact (Block.moves_setEngine he (Engine.move_raise hr)).answer _

theorem Block.setFeedback_moves {b : Bool} (h : s.setFeedback id b = .next (.of t)) :
    s.Moves t ∧ t.ActivityInv := by
  obtain ⟨e, he, h⟩ := Block.withEngine_next h
  cases h
  have hfb : e.Move { e with fb := b } := .of_eq rfl rfl rfl rfl
  exact (Block.moves_setEngine he hfb).answer _

theorem Block.run_moves (h : s.run id = .next (.of t)) : s.Moves t ∧ t.ActivityInv := by
  obtain ⟨e, he, h⟩ := Block.withEngine_next h
  split at h
  · cases h; exact (Block.Moves.refl s).enter he
  · cases h; exact (Block.Moves.refl s).answer _
  · cases h; exact (Block.Moves.refl s).answer _
  · exact Block.hostFault_moves he (r := .callerMisuse .runWhileSuspended) nofun h

theorem Block.resume_moves (h : s.resume id = .next (.of t)) : s.Moves t ∧ t.ActivityInv := by
  obtain ⟨e, he, h⟩ := Block.withEngine_next h
  split at h
  · cases h; exact (Block.Moves.refl s).answer _
  · cases h
    exact (Block.moves_setEngine he (Engine.move_wake ‹_›)).enter (Block.engine?_setEngine_self he)
  · exact Block.hostFault_moves he (r := .callerMisuse .resumeNotSuspended) nofun h
  · exact Block.hostFault_moves he (r := .callerMisuse .resumeNotSuspended) nofun h

theorem Block.readAddress_moves {a : Int} (h : s.readAddress id a = .next (.of t)) :
    s.Moves t ∧ t.ActivityInv := by
  obtain ⟨e, he, h⟩ := Block.withEngine_next h
  split at h
  · cases h; exact (Block.Moves.refl s).answer _
  · rename_i r hr
    obtain ⟨hn, rfl⟩ := Engine.memRead_error hr
    exact Block.hostFault_moves he (r := .outOfRange a e.pc .host) ⟨rfl, Memory.read_eq_none.1 hn⟩ h

theorem Block.readWords_moves {a n : Int} (h : s.readWords id a n = .next (.of t)) :
    s.Moves t ∧ t.ActivityInv := by
  obtain ⟨e, he, h⟩ := Block.withEngine_next h
  split at h
  · exact Block.hostFault_moves he (r := .callerMisuse .inspectionRange) nofun h
  · cases h; exact (Block.Moves.refl s).answer _

theorem Block.poke_moves {a : Int} {v : Word W} (h : s.poke id a v = .next (.of t)) :
    s.Moves t ∧ t.ActivityInv := by
  obtain ⟨e, he, h⟩ := Block.withEngine_next h
  split at h
  · rename_i e' hw
    obtain ⟨-, rfl⟩ := Engine.memWrite_ok hw
    cases h
    have hstore : e.Move (e.store a v) := .of_eq (Memory.length_write _ _ _) rfl rfl rfl
    exact (Block.moves_setEngine he hstore).answer _
  · rename_i r hr
    obtain ⟨hn, rfl⟩ := Engine.memWrite_error hr
    exact Block.hostFault_moves he (r := .outOfRange a e.pc .host) ⟨rfl, hn⟩ h

theorem Block.engineStatus_moves (h : s.engineStatus id = .next (.of t)) : s.Moves t ∧ t.ActivityInv := by
  obtain ⟨e, -, h⟩ := Block.withEngine_next h
  cases h
  exact (Block.Moves.refl s).answer _

theorem Block.amplifierRun_moves {i : Nat} {x : Word W} (h : s.amplifierRun i x = .next (.of t)) :
    s.Moves t ∧ t.ActivityInv := by
  obtain ⟨a, ha, h⟩ := Block.withAmp_next h
  cases h
  rw [Block.mapAmp_eq_putAmp ha]
  exact ⟨(Block.moves_putAmp ha (a.move_begin x)).trans (.of_eq rfl rfl),
    Block.activityInv_amplifier rfl (Block.putAmp_self ha) rfl⟩

theorem Block.amplifierStatus_moves {i : Nat} (h : s.amplifierStatus i = .next (.of t)) :
    s.Moves t ∧ t.ActivityInv := by
  obtain ⟨a, -, h⟩ := Block.withAmp_next h
  cases h
  exact (Block.Moves.refl s).answer _

/-- The host calls that build some engine anew. -/
def HostCall.Rebuilds (c : HostCall W) : Prop := ∃ id, c.rebuilds id = true

theorem Block.serve_moves {c : HostCall W} (hc : ¬ c.Rebuilds) (h : s.serve c = .next (.of t)) :
    s.Moves t ∧ t.ActivityInv := by
  cases c with
  | constructEngine P ins => exact absurd ⟨.host, rfl⟩ hc
  | resetEngine P => exact absurd ⟨.host, rfl⟩ hc
  | constructAmplifier P ph => exact absurd ⟨.ring 0, rfl⟩ hc
  | constructCircuit P phs => exact absurd ⟨.ring 0, rfl⟩ hc
  | circuitRun seed fbMode => exact absurd ⟨.ring 0, rfl⟩ hc
  | amplifierReset i => exact absurd ⟨.ring i, by simp [HostCall.rebuilds]⟩ hc
  | setFeedback id b => exact Block.setFeedback_moves h
  | run id => exact Block.run_moves h
  | resume id => exact Block.resume_moves h
  | readAddress id a => exact Block.readAddress_moves h
  | readWords id a n => exact Block.readWords_moves h
  | poke id a v => exact Block.poke_moves h
  | engineStatus id => exact Block.engineStatus_moves h
  | amplifierRun i x => exact Block.amplifierRun_moves h
  | amplifierStatus i => exact Block.amplifierStatus_moves h

end Moves

end Sys2Proof.Machine
end

section
/-! PROOFS. The status machine (40_engine_cycle.md R83, R96, 10_state.md R18 to R21): what a cycle makes of the
executing engine, and with the calls and returns, what any step makes of any engine. -/

namespace Sys2Proof.Machine

variable {W : Nat}

/-! ### A cycle -/

/-- What a cycle makes of the executing engine. -/
inductive Engine.Cycle (e : Engine W) : Engine W → Prop where
  | faults (r : FaultRecord W) (hr : r.Describes e) : e.Cycle { e with status := .faulted, fault := some r }
  | stores (d : Int) (v : Word W) (n : Nat) : e.Cycle ((e.store d v).advance n)
  | jumps (p : Int) : e.Cycle (e.jump p)
  | halts (w : Word W) (hw : e.mem.read e.pc = some w) (hd : decode w = .ok .hlt) : e.Cycle e.halt
  | suspends (w : Word W) (m : Mode) (v : Word W) (hw : e.mem.read e.pc = some w) (hd : decode w = .ok (.out m))
      (hfb : e.fb = true) (hv : e.SourceIs m 1 v) : e.Cycle e.suspend

section EngineCycle
variable {e e' : Engine W}

theorem Engine.Cycle.fb_eq (h : e.Cycle e') : e'.fb = e.fb := by cases h <;> rfl

theorem Engine.Cycle.length_eq (h : e.Cycle e') : e'.mem.length = e.mem.length := by
  cases h with
  | stores d v n => exact Memory.length_write _ _ _
  | faults r hr | jumps p | halts w hw hd | suspends w m v hw hd hfb hv => rfl

/-- Only OUT with `fb` set suspends. -/
theorem Engine.Cycle.suspended (h : e.Cycle e') (hrun : e.status = .running) (hs : e'.status = .suspended) :
    e.fb = true ∧ e'.pc = e.pc ∧ e'.mem = e.mem ∧ ∃ w m, e.mem.read e.pc = some w ∧ decode w = .ok (.out m) := by
  cases h with
  | suspends w m v hw hd hfb hv => exact ⟨hfb, rfl, rfl, w, m, hw, hd⟩
  | stores d v n | jumps p => exact absurd (hrun.symm.trans hs) (by decide)
  | faults r hr | halts w hw hd => exact absurd hs (by simp)

/-- Only HLT halts. -/
theorem Engine.Cycle.halted (h : e.Cycle e') (hrun : e.status = .running) (hs : e'.status = .halted) :
    e'.mem = e.mem ∧ ∃ w, e.mem.read e.pc = some w ∧ decode w = .ok .hlt := by
  cases h with
  | halts w hw hd => exact ⟨rfl, w, hw, hd⟩
  | stores d v n | jumps p => exact absurd (hrun.symm.trans hs) (by decide)
  | faults r hr | suspends w m v hw hd hfb hv => exact absurd hs (by simp)

/-- A Suspended engine stands at the two words of its OUT, which it has read. -/
theorem Engine.Cycle.inv (h : e.Cycle e') (hrun : e.status = .running) (hi : e.Inv) : e'.Inv := by
  cases h with
  | faults r hr => exact hi.fault hr
  | stores d v n =>
    exact Engine.inv_of_running ((Memory.wf_write _ _ _).trans hi.wf) hrun (hi.fault_eq_none (by simp [hrun]))
  | jumps p => exact hi.jump hrun p
  | halts w hw hd => exact hi.halt hrun
  | suspends w m v hw hd hfb hv =>
    obtain ⟨h0, -⟩ := Memory.inRange_of_read hw
    obtain ⟨pw, hpw, -⟩ := hv
    obtain ⟨-, h1⟩ := Memory.inRange_of_read hpw
    exact hi.suspend hrun h0 h1

end EngineCycle

/-- What a cycle makes of the executing amplifier (45_amplifier.md R115, R116). -/
structure Amplifier.Cycle (a b : Amplifier W) : Prop where
  engine : a.engine.Cycle b.engine
  image : b.image = a.image
  pending : b.pending = a.pending
  finished : b.inState = .finished → a.inState = .finished
  emitted : b.engine.status = .suspended → b.lastOut.isSome = true

theorem Amplifier.cycle_engine {a : Amplifier W} {e : Engine W} (h : a.engine.Cycle e) (hs : e.status ≠ .suspended) :
    a.Cycle { a with engine := e } := ⟨h, rfl, rfl, id, fun hs' => absurd hs' hs⟩

theorem Amplifier.Cycle.inv {a b : Amplifier W} (h : a.Cycle b) (hrun : a.engine.status = .running) (hi : a.Inv) :
    b.Inv := by
  obtain ⟨he, hlen, hfin, -⟩ := hi
  refine ⟨h.engine.inv hrun he, ?_, fun hb => ?_, h.emitted⟩
  · rw [h.engine.length_eq, hlen, h.image]
  · have hstop := hfin (h.finished hb)
    simp [hrun] at hstop

/-- A cycle of a ring's engine replaces the amplifier. -/
theorem step_ring_cases {s t : Block W} {i : Nat} {a : Amplifier W} (h : Executes s (.ring i) a.engine)
    (ha : s.circuit.amps[i]? = some a) (hx : step (.of s) = .next (.of t)) :
    ∃ b, t = s.putAmp i b ∧ a.Cycle b := by
  have ⟨_, _, hrun⟩ := h
  have hnot (e : Engine W) (he : e.status = a.engine.status) : e.status ≠ .suspended := by simp [he, hrun]
  have hfault (r : FaultRecord W) (hr : r.Describes a.engine) :
      ∃ b, s.setEngine (.ring i) { a.engine with status := .faulted, fault := some r } = s.putAmp i b ∧ a.Cycle b :=
    ⟨_, Block.setEngine_eq_putAmp ha, Amplifier.cycle_engine (.faults r hr) nofun⟩
  obtain ⟨w, ins, hw, hd, hi⟩ | ⟨r, rfl, hr⟩ := step_cycle_cases h hx
  · obtain ⟨r, rfl, hr⟩ | ⟨-, -, d, v, -, -, rfl⟩ | ⟨-, -, p, -, rfl⟩ | ⟨rfl, rfl⟩ | ⟨rfl, d, v, s', -, hs, rfl⟩ |
      ⟨m, v, rfl, hv, rfl⟩ := exec_cases h hi
    · exact hfault r (hr (wf_of_decode hd))
    · exact ⟨_, Block.setEngine_eq_putAmp ha, Amplifier.cycle_engine (.stores d v 4) (hnot _ rfl)⟩
    · exact ⟨_, Block.setEngine_eq_putAmp ha, Amplifier.cycle_engine (.jumps p) (hnot _ rfl)⟩
    · exact ⟨_, Block.setEngine_eq_putAmp ha, Amplifier.cycle_engine (.halts w hw hd) nofun⟩
    · obtain ⟨a', hsup, rfl⟩ := Block.supply_ring_changes ha hs
      obtain ⟨hkeep, hfin⟩ := Amplifier.supply_keeps hsup
      refine ⟨_, Block.setEngine_putAmp ha, .stores d v 2, ?_, ?_, fun hf => absurd hf hfin,
        fun hs => absurd hs (hnot _ rfl)⟩
      · simpa using congrArg Amplifier.image hkeep
      · simpa using congrArg Amplifier.pending hkeep
    · rw [Block.consume_ring ha, Block.setEngine_putAmp ha]
      refine ⟨_, rfl, ?_, rfl, rfl, id, fun _ => rfl⟩
      dsimp only
      split
      · exact .suspends w m v hw hd ‹_› (Engine.operand_ok hv)
      · exact .jumps _
  · exact hfault r hr

/-- A cycle of the host's engine replaces that engine, and leaves the circuit and the active call. -/
theorem step_host_cases {s t : Block W} {e : Engine W} (h : Executes s .host e)
    (hx : step (.of s) = .next (.of t)) :
    e.Cycle t.host.engine ∧ t.circuit = s.circuit ∧ t.activity = s.activity := by
  obtain ⟨w, ins, hw, hd, hi⟩ | ⟨r, rfl, hr⟩ := step_cycle_cases h hx
  · obtain ⟨r, rfl, hr⟩ | ⟨-, -, d, v, -, -, rfl⟩ | ⟨-, -, p, -, rfl⟩ | ⟨rfl, rfl⟩ | ⟨rfl, d, v, s', -, hs, rfl⟩ |
      ⟨m, v, rfl, hv, rfl⟩ := exec_cases h hi
    · exact ⟨.faults r (hr (wf_of_decode hd)), rfl, rfl⟩
    · exact ⟨.stores d v 4, rfl, rfl⟩
    · exact ⟨.jumps p, rfl, rfl⟩
    · exact ⟨.halts w hw hd, rfl, rfl⟩
    · obtain ⟨inputs, n, rfl⟩ := Block.supply_host_changes hs
      exact ⟨.stores d v 2, rfl, rfl⟩
    · refine ⟨?_, rfl, rfl⟩
      rw [Block.setEngine_host_engine]
      split
      · exact .suspends w m v hw hd ‹_› (Engine.operand_ok hv)
      · exact .jumps _
  · exact ⟨.faults r hr, rfl, rfl⟩

/-- Settles O34: the step replaces the executing amplifier, or the host's engine. -/
theorem cycleLeavesOtherUnitsAlone : Obligations.CycleLeavesOtherUnitsAlone := by
  refine fun W s t e hstep => ⟨fun i hex => ?_, fun hex => ?_⟩
  · obtain ⟨a, ha, rfl⟩ := hex.exists_amp
    obtain ⟨b, rfl, -⟩ := step_ring_cases hex ha hstep
    exact ⟨rfl, rfl, rfl, fun j hj => Block.putAmp_other hj⟩
  · obtain ⟨-, hcirc, -⟩ := step_host_cases hex hstep
    exact hcirc

/-- A cycle makes its step of the executing engine and leaves every other engine. -/
theorem step_engine_of_executes {s t : Block W} {id id' : EngineId} {e₀ e e' : Engine W} (h : Executes s id e₀)
    (hx : step (.of s) = .next (.of t)) (he : s.engine? id' = some e) (he' : t.engine? id' = some e') :
    Executes s id' e ∧ e.Cycle e' ∨ e' = e := by
  obtain rfl | hid := eq_or_ne id' id
  · have ⟨_, he₀, _⟩ := h
    cases he.symm.trans he₀
    refine .inl ⟨h, ?_⟩
    cases id' with
    | host =>
      obtain ⟨hc, -, -⟩ := step_host_cases h hx
      cases he'
      exact hc
    | ring i =>
      obtain ⟨a, ha, rfl⟩ := h.exists_amp
      obtain ⟨b, rfl, hb⟩ := step_ring_cases h ha hx
      cases (Block.engine?_putAmp_self ha).symm.trans he'
      exact hb.engine
  · refine .inr (Option.some.inj ?_)
    rw [← he, ← he']
    cases id with
    | host =>
      obtain ⟨-, hc, -⟩ := step_host_cases h hx
      cases id' with
      | host => exact absurd rfl hid
      | ring i => simp [Block.engine?, hc]
    | ring i =>
      obtain ⟨a, ha, rfl⟩ := h.exists_amp
      obtain ⟨b, rfl, -⟩ := step_ring_cases h ha hx
      exact keepsOtherEngines_putAmp id' hid

/-! ### A host call that builds engines anew -/

section Rebuild
variable {s t : Block W} {id : EngineId} {e e' : Engine W}

/-- An engine of a ring that was just constructed is Running. -/
theorem Block.constructCircuit_engine {P phases : List (Word W)} (h : s.constructCircuit P phases = .next (.of t))
    (he : s.engine? id = some e) (he' : t.engine? id = some e') : e' = e ∨ id ≠ .host ∧ e'.status = .running := by
  unfold Block.constructCircuit at h
  split_ifs at h
  · cases h
    exact .inl (Option.some.inj (he'.symm.trans ((s.answer_engine? _ id).trans he)))
  · cases h
    cases id with
    | host => cases he; cases he'; exact .inl rfl
    | ring i =>
      obtain ⟨b, hb, rfl⟩ := Option.map_eq_some_iff.1 he'
      obtain ⟨ph, -, rfl⟩ := Option.map_eq_some_iff.1 ((List.getElem?_map ..).symm.trans hb)
      exact .inr ⟨nofun, rfl⟩

/-- Every engine of the ring is Running when a circuit run starts, and calling amplifier 0 does not change that. -/
theorem Block.circuitRun_engine {seed : Word W} {fbMode : Bool} (h : s.circuitRun seed fbMode = .next (.of t))
    (he : s.engine? id = some e) (he' : t.engine? id = some e') : e' = e ∨ id ≠ .host ∧ e'.status = .running := by
  unfold Block.circuitRun at h
  split at h
  · cases h
  · cases h
    cases id with
    | host => cases he; cases he'; exact .inl rfl
    | ring i =>
      obtain ⟨a, ha, -⟩ := Option.map_eq_some_iff.1 he
      have hstart : ({ s with circuit := s.circuit.start seed fbMode } : Block W).engine? (.ring i) =
          some { Engine.fresh a.image a.engine.fb with fb := fbMode } := by
        simp [Block.engine?, Circuit.start, ha, Amplifier.reset]
      obtain rfl | ⟨-, hs, -⟩ := Block.engine?_callAmp_cases hstart he'
      · exact .inr ⟨nofun, rfl⟩
      · exact absurd hs (by simp)

/-- What a host call makes of an engine: a move, or the engine is built anew. -/
theorem Block.serve_engine {c : HostCall W} (h : s.serve c = .next (.of t)) (he : s.engine? id = some e)
    (he' : t.engine? id = some e') : e.Move e' ∨ c.rebuilds id = true ∧ e'.status = .running := by
  have hring (hc : id ≠ .host → c.rebuilds id = true) (h : e' = e ∨ id ≠ .host ∧ e'.status = .running) :
      e.Move e' ∨ c.rebuilds id = true ∧ e'.status = .running :=
    h.imp .of_self fun ⟨hid, hs⟩ => ⟨hc hid, hs⟩
  by_cases hc : c.Rebuilds
  · cases c with
    | constructEngine P ins =>
      change s.constructEngine P ins = _ at h
      unfold Block.constructEngine at h
      split at h <;> cases h
      cases id with
      | host => cases he'; exact .inr ⟨rfl, rfl⟩
      | ring i => cases he.symm.trans he'; exact .inl (.refl e)
    | resetEngine P =>
      change s.resetEngine P = _ at h
      unfold Block.resetEngine at h
      split at h <;> cases h
      cases id with
      | host => cases he'; exact .inr ⟨rfl, rfl⟩
      | ring i => cases he.symm.trans he'; exact .inl (.refl e)
    | constructAmplifier P ph =>
      exact hring (fun hid => by simpa [HostCall.rebuilds] using hid) (Block.constructCircuit_engine h he he')
    | constructCircuit P phs =>
      exact hring (fun hid => by simpa [HostCall.rebuilds] using hid) (Block.constructCircuit_engine h he he')
    | circuitRun seed fbMode =>
      exact hring (fun hid => by simpa [HostCall.rebuilds] using hid) (Block.circuitRun_engine h he he')
    | amplifierReset i =>
      obtain ⟨a, ha, h⟩ := Block.withAmp_next h
      cases h
      rw [Block.answer_engine?] at he'
      obtain rfl | ⟨rfl, -, -, -, rfl⟩ := Block.engine?_mapAmp_cases he he'
      · exact .inl (.refl _)
      · exact .inr ⟨by simp [HostCall.rebuilds], rfl⟩
    | setFeedback | run | resume | readAddress | readWords | poke | engineStatus | amplifierRun | amplifierStatus =>
      obtain ⟨id, hid⟩ := hc
      cases hid
  · obtain ⟨hmoves, -⟩ := Block.serve_moves hc h
    exact .inl (hmoves.engine he he')

end Rebuild

/-! ### Any step -/

/-- What a step makes of an engine: a cycle of it, a move, or a host call that builds it anew. -/
theorem step_engine {s t : Block W} {id : EngineId} {e e' : Engine W} (h : step (.of s) = .next (.of t))
    (he : s.engine? id = some e) (he' : t.engine? id = some e') :
    Executes s id e ∧ e.Cycle e' ∨ e.Move e' ∨
      (s.activity = .idle ∧ (∃ c, s.calls.head? = some c ∧ c.rebuilds id = true) ∧ e'.status = .running) := by
  by_cases hx : ∃ id e, Executes s id e
  · obtain ⟨id', e₀, hx⟩ := hx
    exact (step_engine_of_executes hx h he he').imp_right fun h => .inl (.of_self h)
  · rw [step_of_not_executes hx] at h
    right
    split at h
    · rename_i hidle
      unfold Block.hostStep at h
      split at h
      · cases h
        cases he.symm.trans he'
        exact .inl (.refl e)
      · rename_i c cs hcs
        exact (Block.serve_engine h (Block.engine?_pop he cs) he').imp_right fun ⟨hc, hrun⟩ =>
          ⟨Activity.engineId_eq_none.1 hidle, ⟨c, by simp [hcs], hc⟩, hrun⟩
    · split at h
      · cases h
      · exact .inl ((Block.returnStep_moves h).engine he he')

/-- Settles O36: no move and no rebuilt engine comes to be Suspended. -/
theorem onlyOutputSuspends : Obligations.OnlyOutputSuspends := by
  intro W s t id e e' hstep he he' hne hs
  obtain ⟨hex, hc⟩ | hm | ⟨-, -, hrun⟩ := step_engine hstep he he'
  · have ⟨_, _, hrun⟩ := hex
    exact ⟨hex, hc.suspended hrun hs⟩
  · exact absurd (hm.suspended hs) hne
  · exact absurd (hrun.symm.trans hs) (by decide)

/-- Settles O37: no move and no rebuilt engine comes to be Halted. -/
theorem onlyHaltHalts : Obligations.OnlyHaltHalts := by
  intro W s t id e e' hstep he he' hne hs
  obtain ⟨hex, hc⟩ | hm | ⟨-, -, hrun⟩ := step_engine hstep he he'
  · have ⟨_, _, hrun⟩ := hex
    exact ⟨hex, hc.halted hrun hs⟩
  · exact absurd (hm.halted hs) hne
  · exact absurd (hrun.symm.trans hs) (by decide)

/-- Settles O38: a Faulted engine executes no cycle, and a move keeps its record. -/
theorem faultedLastsUntilReset : Obligations.FaultedLastsUntilReset := by
  intro W s t id e e' hstep he he' hf
  obtain ⟨⟨-, -, hrun⟩, -⟩ | hm | ⟨hidle, hc, -⟩ := step_engine hstep he he'
  · exact absurd (hrun.symm.trans hf) (by decide)
  · exact .inl (hm.faulted hf)
  · exact .inr ⟨hidle, hc⟩

end Sys2Proof.Machine
end

section
/-! PROOFS. The invariant of the block (10_state.md R18, R20, R34, 46_feedback_circuit.md R132 to R134): every step
keeps it, and from a state that meets it a step stops only at a host call the spec does not give. -/

namespace Sys2Proof.Machine

variable {W : Nat}

/-! ### The invariant of the units -/

/-- The part of the invariant that speaks of each unit alone. -/
def Block.UnitsInv (s : Block W) : Prop := s.host.engine.Inv ∧ ∀ a ∈ s.circuit.amps, a.Inv

section Units
variable {s t : Block W}

theorem Block.inv_iff : s.Inv ↔ s.UnitsInv ∧ s.ActivityInv := and_assoc.symm

theorem Block.UnitsInv.amp {i : Nat} {a : Amplifier W} (h : s.UnitsInv) (ha : s.circuit.amps[i]? = some a) : a.Inv :=
  h.2 a (List.mem_of_getElem? ha)

theorem Block.Moves.unitsInv (h : s.Moves t) (hi : s.UnitsInv) : t.UnitsInv := by
  refine ⟨h.host.inv hi.1, fun b hb => ?_⟩
  obtain ⟨i, hb⟩ := List.mem_iff_getElem?.1 hb
  obtain ⟨a, ha, hab⟩ := h.ring i b hb
  exact hab.inv (hi.amp ha)

theorem Block.UnitsInv.putAmp {i : Nat} {b : Amplifier W} (h : s.UnitsInv) (hb : b.Inv) : (s.putAmp i b).UnitsInv :=
  ⟨h.1, fun a ha => (List.mem_or_eq_of_mem_set ha).elim (h.2 a) fun hab => hab ▸ hb⟩

theorem Engine.fresh_inv {P : List (Word W)} (hP : Memory.wf P = true) (fb : Bool) : (Engine.fresh P fb).Inv :=
  Engine.inv_of_running hP rfl rfl

/-- An amplifier over its own image whose engine is at its reset values. -/
theorem Amplifier.inv_of_fresh {a : Amplifier W} {fb : Bool} (he : a.engine = Engine.fresh a.image fb)
    (hP : Memory.wf a.image = true) (hin : a.inState = .awaitingPhase) : a.Inv := by
  simp [Amplifier.Inv, he, Engine.fresh_inv hP, hin]

theorem Amplifier.construct_inv {P : List (Word W)} (hP : Memory.wf P = true) (phase : Word W) :
    (Amplifier.construct P phase).Inv := Amplifier.inv_of_fresh rfl hP rfl

/-- The image is as long as the storage, so it meets the bound. -/
theorem Amplifier.Inv.image_wf {a : Amplifier W} (h : a.Inv) : Memory.wf a.image = true := by
  obtain ⟨he, hlen, -⟩ := h
  exact (Memory.wf_congr hlen.symm).trans he.wf

theorem Amplifier.Inv.reset {a : Amplifier W} (h : a.Inv) : a.reset.Inv :=
  Amplifier.inv_of_fresh rfl h.image_wf rfl

/-- What the start of a circuit run makes of an amplifier (46_feedback_circuit.md R132). -/
def Amplifier.start (a : Amplifier W) (fbMode : Bool) : Amplifier W :=
  { a.reset with engine := Engine.fresh a.image fbMode }

theorem Circuit.start_amps (c : Circuit W) (seed : Word W) (fbMode : Bool) :
    (c.start seed fbMode).amps = c.amps.map (·.start fbMode) := rfl

theorem Amplifier.Inv.start {a : Amplifier W} (h : a.Inv) (fbMode : Bool) : (a.start fbMode).Inv :=
  Amplifier.inv_of_fresh rfl h.image_wf rfl

end Units

/-! ### The invariant of the active call -/

/-- Every engine of the ring has the run's feedback flag, so that none is Suspended without it. -/
def Circuit.RingInv (c : Circuit W) : Prop :=
  ∀ a ∈ c.amps, a.engine.fb = c.fbMode ∧ (a.engine.status = .suspended → c.fbMode = true)

section Activity
variable {s t : Block W} {i : Nat} {a b : Amplifier W}

theorem Block.activityInv_circuit (hact : s.activity = .circuit i) (ha : s.circuit.amps[i]? = some a)
    (hp : a.pending = some s.circuit.signal) (hring : s.circuit.RingInv) : s.ActivityInv := by
  simp only [Block.ActivityInv, hact]
  exact ⟨⟨a, ha, hp⟩, hring⟩

theorem Block.ActivityInv.of_engine {id : EngineId} (h : s.ActivityInv) (hact : s.activity = .engine id) :
    (s.engine? id).isSome = true := by
  simpa only [Block.ActivityInv, hact] using h

theorem Block.ActivityInv.of_amplifier (h : s.ActivityInv) (hact : s.activity = .amplifier i) :
    ∃ a, s.circuit.amps[i]? = some a ∧ a.pending.isSome = true := by
  simpa only [Block.ActivityInv, hact] using h

theorem Block.ActivityInv.of_circuit (h : s.ActivityInv) (hact : s.activity = .circuit i) :
    (∃ a, s.circuit.amps[i]? = some a ∧ a.pending = some s.circuit.signal) ∧ s.circuit.RingInv := by
  simp only [Block.ActivityInv, hact] at h
  exact h

theorem Circuit.RingInv.putAmp (h : s.circuit.RingInv)
    (hb : b.engine.fb = s.circuit.fbMode ∧ (b.engine.status = .suspended → s.circuit.fbMode = true)) :
    (s.putAmp i b).circuit.RingInv :=
  fun a ha => (List.mem_or_eq_of_mem_set ha).elim (h a) fun hab => hab ▸ hb

/-- The called amplifier has the signal as its pending word, and waking it sets no flag. -/
theorem Block.activityInv_callAmp (hi : i < s.circuit.amps.length) (hring : s.circuit.RingInv) :
    (s.callAmp i).ActivityInv := by
  have ha := List.getElem?_eq_getElem hi
  have hself : (s.callAmp i).circuit.amps[i]? = some (s.circuit.amps[i].begin s.circuit.signal) := by
    rw [Block.callAmp_amps, if_pos rfl, ha]; rfl
  refine Block.activityInv_circuit rfl hself rfl ?_
  have hput : (s.callAmp i).circuit = (s.putAmp i (s.circuit.amps[i].begin s.circuit.signal)).circuit := by
    rw [← Block.mapAmp_eq_putAmp (f := fun a => a.begin s.circuit.signal) ha]
    rfl
  rw [hput]
  refine hring.putAmp ?_
  obtain ⟨hfb, hsusp⟩ := hring _ (List.getElem_mem hi)
  simp only [Amplifier.begin]
  split
  · exact ⟨hfb, nofun⟩
  · exact ⟨hfb, hsusp⟩

/-! ### The return of a call keeps the invariant -/

theorem Block.activityInv_endPass (hne : 0 < s.circuit.amps.length) (hring : s.circuit.RingInv) :
    s.endPass.ActivityInv := by
  unfold Block.endPass
  dsimp only
  split_ifs
  · exact s.activityInv_answer _
  · exact Block.activityInv_callAmp hne hring
  · exact s.activityInv_answer _
  · exact s.activityInv_answer _

theorem Block.activityInv_afterAmp (hi : i < s.circuit.amps.length) (hring : s.circuit.RingInv)
    (x : Except (FaultRecord W) (Word W)) : (s.afterAmp i x).ActivityInv := by
  cases x with
  | error r => exact s.activityInv_answer _
  | ok v =>
    unfold Block.afterAmp
    dsimp only
    split
    · exact Block.activityInv_callAmp (s := s.carry v) (by assumption) hring
    · exact Block.activityInv_endPass (s := s.carry v) (Nat.zero_lt_of_lt hi) hring

theorem Block.returnStep_inv (hi : s.Inv) (h : s.returnStep = .next (.of t)) : t.Inv := by
  rw [Block.inv_iff] at hi ⊢
  obtain ⟨hu, hact⟩ := hi
  refine ⟨(Block.returnStep_moves h).unitsInv hu, ?_⟩
  unfold Block.returnStep at h
  split at h
  · cases h
  · split at h <;> cases h
    exact s.activityInv_answer _
  · split at h <;> cases h
    exact Block.activityInv_answer _ _
  · rename_i i hcirc
    split at h
    · cases h
    · rename_i a ha
      cases h
      obtain ⟨-, hring⟩ := hact.of_circuit hcirc
      obtain ⟨hlt, -⟩ := List.getElem?_eq_some_iff.1 ha
      have hsettle := hring.putAmp (i := i) (b := a.settle) (hring a (List.mem_of_getElem? ha))
      rw [Block.mapAmp_eq_putAmp ha]
      exact Block.activityInv_afterAmp (by simpa [Block.putAmp] using hlt) hsettle _

/-! ### A cycle keeps the invariant -/

/-- The executing amplifier keeps its pending word and its engine's flag, and suspends only with that flag. -/
theorem Amplifier.Cycle.activityInv (h : a.Cycle b) (hrun : a.engine.status = .running)
    (ha : s.circuit.amps[i]? = some a) (hid : s.activity.engineId = some (.ring i)) (hi : s.ActivityInv) :
    (s.putAmp i b).ActivityInv := by
  have hb : (s.putAmp i b).circuit.amps[i]? = some b := Block.putAmp_self ha
  cases hact : s.activity with
  | idle => simp [hact, Activity.engineId] at hid
  | engine id =>
    obtain rfl : id = .ring i := by simpa [hact, Activity.engineId] using hid
    exact Block.activityInv_engine hact (by simp [Block.engine?_putAmp_self ha])
  | amplifier j =>
    obtain rfl : j = i := by simpa [hact, Activity.engineId] using hid
    obtain ⟨a', ha', hp⟩ := hi.of_amplifier hact
    cases ha.symm.trans ha'
    exact Block.activityInv_amplifier hact hb (h.pending ▸ hp)
  | circuit j =>
    obtain rfl : j = i := by simpa [hact, Activity.engineId] using hid
    obtain ⟨⟨a', ha', hp⟩, hring⟩ := hi.of_circuit hact
    cases ha.symm.trans ha'
    obtain ⟨hfb, -⟩ := hring a (List.mem_of_getElem? ha)
    refine Block.activityInv_circuit hact hb (h.pending.trans hp)
      (hring.putAmp ⟨h.engine.fb_eq.trans hfb, fun hs => ?_⟩)
    obtain ⟨hset, -⟩ := h.engine.suspended hrun hs
    exact hfb.symm.trans hset

theorem step_inv_of_executes {id : EngineId} {e : Engine W} (h : Executes s id e) (hx : step (.of s) = .next (.of t))
    (hi : s.Inv) : t.Inv := by
  rw [Block.inv_iff] at hi ⊢
  obtain ⟨hu, hact⟩ := hi
  have ⟨hid, he, hrun⟩ := h
  cases id with
  | host =>
    cases he
    obtain ⟨hc, hcirc, hsame⟩ := step_host_cases h hx
    refine ⟨⟨hc.inv hrun hu.1, hcirc ▸ hu.2⟩, ?_⟩
    have hhost : s.activity = .engine .host := by
      cases ha : s.activity <;> simp_all [Activity.engineId]
    exact Block.activityInv_engine (hsame.trans hhost) rfl
  | ring i =>
    obtain ⟨a, ha, rfl⟩ := h.exists_amp
    obtain ⟨b, rfl, hb⟩ := step_ring_cases h ha hx
    exact ⟨hu.putAmp (hb.inv hrun (hu.amp ha)), hb.activityInv hrun ha hid hact⟩

/-! ### A call of the host keeps the invariant -/

theorem Block.constructEngine_inv {P ins : List (Word W)} (hu : s.UnitsInv)
    (h : s.constructEngine P ins = .next (.of t)) : t.Inv := by
  unfold Block.constructEngine at h
  split at h <;> cases h
  exact Block.inv_iff.2 ⟨⟨Engine.fresh_inv (by assumption) false, hu.2⟩, trivial⟩

theorem Block.resetEngine_inv {P : List (Word W)} (hu : s.UnitsInv) (h : s.resetEngine P = .next (.of t)) :
    t.Inv := by
  unfold Block.resetEngine at h
  split at h <;> cases h
  exact Block.inv_iff.2 ⟨⟨Engine.fresh_inv (by assumption) _, hu.2⟩, trivial⟩

theorem Block.constructCircuit_inv {P phases : List (Word W)} (hu : s.UnitsInv)
    (h : s.constructCircuit P phases = .next (.of t)) : t.Inv := by
  unfold Block.constructCircuit at h
  split_ifs at h with hnil hP
  · cases h
    exact Block.inv_iff.2 ⟨hu, trivial⟩
  · cases h
    refine Block.inv_iff.2 ⟨⟨hu.1, fun a ha => ?_⟩, trivial⟩
    obtain ⟨ph, -, rfl⟩ := List.mem_map.1 ha
    exact Amplifier.construct_inv hP ph

theorem Block.amplifierReset_inv (hu : s.UnitsInv) (h : s.amplifierReset i = .next (.of t)) : t.Inv := by
  obtain ⟨a, ha, h⟩ := Block.withAmp_next h
  cases h
  rw [Block.mapAmp_eq_putAmp ha]
  exact Block.inv_iff.2 ⟨hu.putAmp (hu.amp ha).reset, trivial⟩

/-- The start of a circuit run resets every amplifier and gives every engine the run's flag. -/
theorem Block.circuitRun_inv {seed : Word W} {fbMode : Bool} (hu : s.UnitsInv)
    (h : s.circuitRun seed fbMode = .next (.of t)) : t.Inv := by
  unfold Block.circuitRun at h
  split at h
  · cases h
  · rename_i hne
    cases h
    have hstart : ({ s with circuit := s.circuit.start seed fbMode } : Block W).UnitsInv := by
      refine ⟨hu.1, fun b hb => ?_⟩
      obtain ⟨a, ha, rfl⟩ := List.mem_map.1 (Circuit.start_amps s.circuit seed fbMode ▸ hb)
      exact (hu.2 a ha).start fbMode
    have hring : (s.circuit.start seed fbMode).RingInv := by
      intro b hb
      obtain ⟨a, -, rfl⟩ := List.mem_map.1 (Circuit.start_amps s.circuit seed fbMode ▸ hb)
      exact ⟨rfl, nofun⟩
    have hlen : 0 < (s.circuit.start seed fbMode).amps.length := by
      simpa [Circuit.start_amps, List.length_pos_iff] using hne
    exact Block.inv_iff.2 ⟨(Block.moves_callAmp _ 0).unitsInv hstart, Block.activityInv_callAmp hlen hring⟩

theorem Block.serve_inv {c : HostCall W} (hu : s.UnitsInv) (h : s.serve c = .next (.of t)) : t.Inv := by
  by_cases hc : c.Rebuilds
  · cases c with
    | constructEngine P ins => exact Block.constructEngine_inv hu h
    | resetEngine P => exact Block.resetEngine_inv hu h
    | constructAmplifier P ph => exact Block.constructCircuit_inv hu h
    | constructCircuit P phs => exact Block.constructCircuit_inv hu h
    | amplifierReset i => exact Block.amplifierReset_inv hu h
    | circuitRun seed fbMode => exact Block.circuitRun_inv hu h
    | setFeedback | run | resume | readAddress | readWords | poke | engineStatus | amplifierRun | amplifierStatus =>
      obtain ⟨id, hid⟩ := hc
      cases hid
  · obtain ⟨hmoves, hact⟩ := Block.serve_moves hc h
    exact Block.inv_iff.2 ⟨hmoves.unitsInv hu, hact⟩

theorem Block.hostStep_inv (hi : s.Inv) (h : s.hostStep = .next (.of t)) : t.Inv := by
  unfold Block.hostStep at h
  split at h
  · cases h; exact hi
  · obtain ⟨hu, -⟩ := Block.inv_iff.1 hi
    exact Block.serve_inv (s := { s with calls := _, reply := none }) hu h

end Activity

/-! ### Every state -/

theorem Block.reset_inv : (Block.reset (W := W)).Inv :=
  ⟨Engine.inv_of_running reset_storage_wf rfl rfl, List.forall_mem_nil _, trivial⟩

/-- Settles O54: the host's engine is fresh over the empty image, and nothing else exists. -/
theorem invariantHoldsAtReset : Obligations.InvariantHoldsAtReset :=
  ⟨Block.reset_inv, fun _ => Block.reset_inv⟩

/-- Settles O55: a cycle, the return of a call, and a host call each keep it. -/
theorem stepKeepsTheInvariant : Obligations.StepKeepsTheInvariant := by
  rintro ⟨s⟩ ⟨t⟩ hi hstep
  have hw := step_width hstep
  dsimp only at hw
  subst hw
  by_cases hx : ∃ id e, Executes s id e
  · obtain ⟨id, e, hx⟩ := hx
    exact step_inv_of_executes hx hstep hi
  · rw [step_of_not_executes hx] at hstep
    split at hstep
    · exact Block.hostStep_inv hi hstep
    · split at hstep
      · cases hstep
      · exact Block.returnStep_inv hi hstep

/-! ### Where a step stops -/

section Answers
variable {s : Block W} {id : EngineId} {i : Nat}

/-- The call is answered, or it is refused by name because the spec does not give it. -/
def HostCall.AnsweredOrImpossible (c : HostCall W) (s : Block W) : Prop :=
  (∃ t : State, s.serve c = .next t) ∨
    c.Impossible s ∧ (s.serve c = .refused .noSuchUnit ∨ s.serve c = .refused .imageTooLong)

theorem Block.withEngine_answers {k : Engine W → Outcome} (hk : ∀ e, ∃ t, k e = .next t) :
    (∃ t, s.withEngine id k = .next t) ∨ s.engine? id = none ∧ s.withEngine id k = .refused .noSuchUnit := by
  cases he : s.engine? id with
  | none => exact .inr ⟨rfl, by simp [Block.withEngine, he]⟩
  | some e => exact .inl (Block.withEngine_of_some he k ▸ hk e)

theorem Block.withAmp_answers {k : Amplifier W → Outcome} (hk : ∀ a, ∃ t, k a = .next t) :
    (∃ t, s.withAmp i k = .next t) ∨ s.circuit.amps[i]? = none ∧ s.withAmp i k = .refused .noSuchUnit := by
  cases ha : s.circuit.amps[i]? with
  | none => exact .inr ⟨rfl, by simp [Block.withAmp, ha]⟩
  | some a => exact .inl (Block.withAmp_of_some ha k ▸ hk a)

theorem Memory.wf_or_too_long {P : List (Word W)} :
    Memory.wf P = true ∨ Memory.wf P ≠ true ∧ Config.maxLength W < P.length := by
  by_cases h : P.length ≤ Config.maxLength W
  · exact .inl (Memory.wf_of_le h)
  · exact .inr ⟨by simpa [Memory.wf] using h, not_le.1 h⟩

theorem Block.constructEngine_answers (s : Block W) (P ins : List (Word W)) :
    (∃ t, s.constructEngine P ins = .next t) ∨
      Config.maxLength W < P.length ∧ s.constructEngine P ins = .refused .imageTooLong := by
  obtain hP | ⟨hP, hlen⟩ := Memory.wf_or_too_long (P := P)
  · exact .inl ⟨_, if_pos hP⟩
  · exact .inr ⟨hlen, if_neg hP⟩

theorem Block.resetEngine_answers (s : Block W) (P : List (Word W)) :
    (∃ t, s.resetEngine P = .next t) ∨
      Config.maxLength W < P.length ∧ s.resetEngine P = .refused .imageTooLong := by
  obtain hP | ⟨hP, hlen⟩ := Memory.wf_or_too_long (P := P)
  · exact .inl ⟨_, if_pos hP⟩
  · exact .inr ⟨hlen, if_neg hP⟩

theorem Block.circuitRun_answers (s : Block W) (seed : Word W) (fbMode : Bool) :
    (∃ t, s.circuitRun seed fbMode = .next t) ∨
      s.circuit.amps = [] ∧ s.circuitRun seed fbMode = .refused .noSuchUnit := by
  by_cases hnil : s.circuit.amps = []
  · exact .inr ⟨hnil, if_pos hnil⟩
  · exact .inl ⟨_, if_neg hnil⟩

theorem Block.constructCircuit_answers (s : Block W) (P phases : List (Word W)) :
    (∃ t, s.constructCircuit P phases = .next t) ∨
      (phases ≠ [] ∧ Config.maxLength W < P.length) ∧ s.constructCircuit P phases = .refused .imageTooLong := by
  unfold Block.constructCircuit
  by_cases hnil : phases = []
  · rw [if_pos hnil]; exact .inl ⟨_, rfl⟩
  · rw [if_neg hnil]
    obtain hP | ⟨hP, hlen⟩ := Memory.wf_or_too_long (P := P)
    · rw [if_pos hP]; exact .inl ⟨_, rfl⟩
    · rw [if_neg hP]; exact .inr ⟨⟨hnil, hlen⟩, rfl⟩

theorem Block.serve_answers (s : Block W) (c : HostCall W) : c.AnsweredOrImpossible s := by
  have hunit {p : Prop} {o : Outcome} (h : (∃ t, o = .next t) ∨ p ∧ o = .refused .noSuchUnit) :
      (∃ t, o = .next t) ∨ p ∧ (o = .refused .noSuchUnit ∨ o = .refused .imageTooLong) :=
    h.imp_right fun ⟨hp, ho⟩ => ⟨hp, .inl ho⟩
  have himage {p : Prop} {o : Outcome} (h : (∃ t, o = .next t) ∨ p ∧ o = .refused .imageTooLong) :
      (∃ t, o = .next t) ∨ p ∧ (o = .refused .noSuchUnit ∨ o = .refused .imageTooLong) :=
    h.imp_right fun ⟨hp, ho⟩ => ⟨hp, .inr ho⟩
  cases c with
  | constructEngine P ins => exact himage (s.constructEngine_answers P ins)
  | resetEngine P => exact himage (s.resetEngine_answers P)
  | constructAmplifier P ph =>
    exact himage ((s.constructCircuit_answers P [ph]).imp_right fun ⟨⟨_, hlen⟩, ho⟩ => ⟨hlen, ho⟩)
  | constructCircuit P phs => exact himage (s.constructCircuit_answers P phs)
  | circuitRun seed fbMode => exact hunit (s.circuitRun_answers seed fbMode)
  | setFeedback id b => exact hunit (Block.withEngine_answers fun e => ⟨_, rfl⟩)
  | engineStatus id => exact hunit (Block.withEngine_answers fun e => ⟨_, rfl⟩)
  | run id => exact hunit (Block.withEngine_answers fun e => by split <;> exact ⟨_, rfl⟩)
  | resume id => exact hunit (Block.withEngine_answers fun e => by split <;> exact ⟨_, rfl⟩)
  | readAddress id a => exact hunit (Block.withEngine_answers fun e => by split <;> exact ⟨_, rfl⟩)
  | readWords id a n => exact hunit (Block.withEngine_answers fun e => by split <;> exact ⟨_, rfl⟩)
  | poke id a v => exact hunit (Block.withEngine_answers fun e => by split <;> exact ⟨_, rfl⟩)
  | amplifierRun i x => exact hunit (Block.withAmp_answers fun a => ⟨_, rfl⟩)
  | amplifierReset i => exact hunit (Block.withAmp_answers fun a => ⟨_, rfl⟩)
  | amplifierStatus i => exact hunit (Block.withAmp_answers fun a => ⟨_, rfl⟩)

/-- What the host may call does not depend on the list of its calls or on the last reply. -/
theorem HostCall.impossible_pop {c : HostCall W} {cs : List (HostCall W)}
    (h : c.Impossible ({ s with calls := cs, reply := none } : Block W)) : c.Impossible s := by
  cases c with
  | setFeedback id b | run id | resume id | readAddress id a | readWords id a n | poke id a v | engineStatus id =>
    cases id <;> exact h
  | constructEngine P ins | constructAmplifier P ph | constructCircuit P phs | resetEngine P | amplifierRun i x
  | amplifierReset i | amplifierStatus i | circuitRun seed fbMode => exact h

theorem Block.hostStep_answers (s : Block W) : (∃ t, s.hostStep = .next t) ∨
    ∃ c cs, s.calls = c :: cs ∧ c.Impossible s ∧
      (s.hostStep = .refused .noSuchUnit ∨ s.hostStep = .refused .imageTooLong) := by
  cases hcs : s.calls with
  | nil => exact .inl ⟨.of s, by simp [Block.hostStep, hcs]⟩
  | cons c cs =>
    have hserve : s.hostStep = ({ s with calls := cs, reply := none } : Block W).serve c := by
      simp [Block.hostStep, hcs]
    rw [hserve]
    exact (Block.serve_answers _ c).imp_right fun ⟨hc, hs⟩ => ⟨c, cs, rfl, HostCall.impossible_pop hc, hs⟩

/-- The active call names what exists, so an ended engine loop has where to return to. -/
theorem Block.returnStep_answers (hact : s.ActivityInv) (hne : s.activity ≠ .idle) : ∃ t, s.returnStep = .next t := by
  unfold Block.returnStep
  split
  · exact absurd ‹_› hne
  · obtain ⟨e, he⟩ := Option.isSome_iff_exists.1 (hact.of_engine ‹_›)
    simp [he]
  · obtain ⟨a, ha, -⟩ := hact.of_amplifier ‹_›
    simp [ha]
  · obtain ⟨⟨a, ha, -⟩, -⟩ := hact.of_circuit ‹_›
    simp [ha]

/-- The engine of the active call exists. -/
theorem Block.ActivityInv.engine_isSome (hact : s.ActivityInv) (hid : s.activity.engineId = some id) :
    ∃ e, s.engine? id = some e := by
  cases ha : s.activity with
  | idle => simp [ha, Activity.engineId] at hid
  | engine id' =>
    obtain rfl : id' = id := by simpa [ha, Activity.engineId] using hid
    exact Option.isSome_iff_exists.1 (hact.of_engine ha)
  | amplifier i =>
    obtain rfl : .ring i = id := by simpa [ha, Activity.engineId] using hid
    obtain ⟨a, ha, -⟩ := hact.of_amplifier ha
    exact ⟨a.engine, by simp [Block.engine?, ha]⟩
  | circuit i =>
    obtain rfl : .ring i = id := by simpa [ha, Activity.engineId] using hid
    obtain ⟨⟨a, ha, -⟩, -⟩ := hact.of_circuit ha
    exact ⟨a.engine, by simp [Block.engine?, ha]⟩

theorem step_of_executes_answers {e : Engine W} (h : Executes s id e) : ∃ t, step (.of s) = .next t := by
  cases hf : e.fetch with
  | ok i =>
    obtain ⟨t, ht⟩ := exec_of_executes h i
    exact ⟨_, (step_of_fetch_ok h hf).trans ht⟩
  | error r => exact ⟨_, step_of_fetch_error h hf⟩

end Answers

/-- Settles O56: an executing engine has its cycle, the active call its return, and only the host's call can be
refused. -/
theorem stepStopsOnlyOnImpossibleHostCalls : Obligations.StepStopsOnlyOnImpossibleHostCalls := by
  rintro ⟨s⟩ hi
  obtain ⟨-, hact⟩ := Block.inv_iff.1 hi
  by_cases hx : ∃ id e, Executes s id e
  · obtain ⟨id, e, hx⟩ := hx
    exact .inl (step_of_executes_answers hx)
  · cases hid : s.activity.engineId with
    | none =>
      have hstep : step (.of s) = s.hostStep := by rw [step_of_not_executes hx, hid]
      rw [hstep]
      exact s.hostStep_answers.imp_right fun h => ⟨Activity.engineId_eq_none.1 hid, h⟩
    | some id =>
      obtain ⟨e, he⟩ := hact.engine_isSome hid
      have hstep : step (.of s) = s.returnStep := by simp [step_of_not_executes hx, hid, he]
      rw [hstep]
      refine .inl (Block.returnStep_answers hact fun hidle => ?_)
      simp [hidle, Activity.engineId] at hid

/-! ### IN inside a run -/

/-- The source of an amplifier that is not Finished and has a pending word gives a word. -/
theorem Amplifier.supply_ok {a : Amplifier W} (hfin : a.inState ≠ .finished) (hp : a.pending.isSome = true) :
    ∃ v a', a.supply = .ok (v, a') := by
  obtain ⟨x, hx⟩ := Option.isSome_iff_exists.1 hp
  cases hin : a.inState with
  | awaitingPhase => exact ⟨_, _, Amplifier.supply_phase hin⟩
  | phaseDelivered => exact ⟨_, _, Amplifier.supply_pending hin hx⟩
  | finished => exact absurd hin hfin

/-- Settles O48: inside a run a pending word is recorded, and an executing amplifier is not Finished. -/
theorem inputInsideARunIsNeverMisused : Obligations.InputInsideARunIsNeverMisused := by
  intro W s i e d hi hrun hex hd
  obtain ⟨hu, hact⟩ := Block.inv_iff.1 hi
  obtain ⟨a, ha, rfl⟩ := hex.exists_amp
  have hp : a.pending.isSome = true := by
    obtain hrun | hrun := hrun
    · obtain ⟨b, hb, hp⟩ := hact.of_amplifier hrun
      cases ha.symm.trans hb
      exact hp
    · obtain ⟨⟨b, hb, hp⟩, -⟩ := hact.of_circuit hrun
      cases ha.symm.trans hb
      rw [hp]; rfl
  have hfin : a.inState ≠ .finished := fun hf => by
    obtain ⟨-, -, hrun⟩ := hex
    obtain ⟨-, -, hstop, -⟩ := hu.amp ha
    simpa [hrun] using hstop hf
  obtain ⟨v, a', hs⟩ := Amplifier.supply_ok hfin hp
  refine ⟨_, v, exec_inp_of_supply hex hd (Block.supply_ring_ok ha hs), ?_⟩
  rw [Block.setEngine_putAmp ha, Block.engine?_putAmp_self ha]

end Sys2Proof.Machine
end
